-- ==== Sys2Proof/Word.lean ====
section
/-! DEFINITION. The machine's words: bytes, opcode words, register indices (00_scope.md R6, R8). -/

namespace Sys2Proof

/-- One byte: a V register, a timer, a memory location (R6). -/
abbrev Byte := BitVec 8

/-- One 16-bit opcode word (R90). The same width holds I, PC and a return address (R26, R28, R31). -/
abbrev Word := BitVec 16

/-- The index of a V register or of a key, 0x0..0xF (R20, R35). -/
abbrev Reg := Fin 16

/-- The index 0xF of the flag register VF (R23). -/
abbrev vf : Reg := 15

end Sys2Proof
end

