-- ==== Sys2Proof/Syntax.lean ====
section
/-! DEFINITION. The 34 instructions of 00_scope.md R2, one constructor per row of spec/opcode_table.json. -/

namespace Sys2Proof

/-- An instruction with its operands (30_encoding.md R91, R92): `x`, `y` register indices, `kk` an 8-bit immediate,
`nnn` a 12-bit address, `n` a row count. The operand types hold exactly the values a field can encode (R93), so
every term is a well-formed instruction. -/
inductive Instr where
  /-- 00E0 clear the display (R250). -/
  | cls
  /-- 00EE return from subroutine (R150). -/
  | ret
  /-- 1nnn jump (R151). -/
  | jp (nnn : BitVec 12)
  /-- 2nnn call subroutine (R152). -/
  | call (nnn : BitVec 12)
  /-- 3xkk skip if Vx = kk (R153). -/
  | seImm (x : Reg) (kk : Byte)
  /-- 4xkk skip if Vx ≠ kk (R154). -/
  | sneImm (x : Reg) (kk : Byte)
  /-- 5xy0 skip if Vx = Vy (R155). -/
  | seReg (x y : Reg)
  /-- 6xkk load immediate (R180). -/
  | ldImm (x : Reg) (kk : Byte)
  /-- 7xkk add immediate (R181). -/
  | addImm (x : Reg) (kk : Byte)
  /-- 8xy0 copy (R182). -/
  | ldReg (x y : Reg)
  /-- 8xy1 bitwise or (R183). -/
  | orReg (x y : Reg)
  /-- 8xy2 bitwise and (R184). -/
  | andReg (x y : Reg)
  /-- 8xy3 bitwise exclusive or (R185). -/
  | xorReg (x y : Reg)
  /-- 8xy4 add with carry (R186). -/
  | addReg (x y : Reg)
  /-- 8xy5 subtract (R187). -/
  | subReg (x y : Reg)
  /-- 8xy6 shift right; `y` is encoded and not read (R188). -/
  | shr (x y : Reg)
  /-- 8xy7 reverse subtract (R189). -/
  | subnReg (x y : Reg)
  /-- 8xyE shift left; `y` is encoded and not read (R190). -/
  | shl (x y : Reg)
  /-- 9xy0 skip if Vx ≠ Vy (R156). -/
  | sneReg (x y : Reg)
  /-- Annn set index (R220). -/
  | ldI (nnn : BitVec 12)
  /-- Bnnn jump with offset V0 (R157). -/
  | jpV0 (nnn : BitVec 12)
  /-- Cxkk random byte masked (R191). -/
  | rnd (x : Reg) (kk : Byte)
  /-- Dxyn draw sprite of n rows (R251). -/
  | drw (x y : Reg) (n : Fin 16)
  /-- Ex9E skip if key Vx pressed (R280). -/
  | skp (x : Reg)
  /-- ExA1 skip if key Vx not pressed (R281). -/
  | sknp (x : Reg)
  /-- Fx07 read delay timer (R282). -/
  | ldFromDT (x : Reg)
  /-- Fx0A wait for key (R283). -/
  | ldKey (x : Reg)
  /-- Fx15 set delay timer (R284). -/
  | ldToDT (x : Reg)
  /-- Fx18 set sound timer (R285). -/
  | ldToST (x : Reg)
  /-- Fx1E add to index, checked (R221). -/
  | addI (x : Reg)
  /-- Fx29 point I at a glyph (R222). -/
  | ldFont (x : Reg)
  /-- Fx33 store BCD (R223). -/
  | ldBcd (x : Reg)
  /-- Fx55 store V0..Vx (R224). -/
  | storeRegs (x : Reg)
  /-- Fx65 load V0..Vx (R225). -/
  | loadRegs (x : Reg)
  deriving DecidableEq, Repr

end Sys2Proof
end

