-- ==== Sys2Proof/WellFormed.lean ====
section
/-! DEFINITION. What is well-formed: an opcode word (it matches one of the 34 patterns, 30_encoding.md R94, R97)
and a program image (it fits program space, 70_reset_and_hazards.md R352). Every term of `Instr` is well-formed by
its operand types, so these two checks are all the checks there are. -/

namespace Sys2Proof

/-- One row of the opcode map: a word selects it when the word's `mask` bits equal `pattern` (R94). -/
structure Pattern where
  name : String
  pattern : Word
  mask : Word
  deriving DecidableEq, Repr

/-- Does the word match the whole pattern of the row? (R94) -/
def Pattern.selects (p : Pattern) (w : Word) : Bool := w &&& p.mask == p.pattern

/-- The rows of families 0 to 7 (R95). -/
def opcodeRowsLow : List Pattern :=
  [⟨"00E0", 0x00E0#16, 0xFFFF#16⟩, ⟨"00EE", 0x00EE#16, 0xFFFF#16⟩, ⟨"1nnn", 0x1000#16, 0xF000#16⟩,
   ⟨"2nnn", 0x2000#16, 0xF000#16⟩, ⟨"3xkk", 0x3000#16, 0xF000#16⟩, ⟨"4xkk", 0x4000#16, 0xF000#16⟩,
   ⟨"5xy0", 0x5000#16, 0xF00F#16⟩, ⟨"6xkk", 0x6000#16, 0xF000#16⟩, ⟨"7xkk", 0x7000#16, 0xF000#16⟩]

/-- The rows of family 8 (R96). -/
def opcodeRowsEight : List Pattern :=
  [⟨"8xy0", 0x8000#16, 0xF00F#16⟩, ⟨"8xy1", 0x8001#16, 0xF00F#16⟩, ⟨"8xy2", 0x8002#16, 0xF00F#16⟩,
   ⟨"8xy3", 0x8003#16, 0xF00F#16⟩, ⟨"8xy4", 0x8004#16, 0xF00F#16⟩, ⟨"8xy5", 0x8005#16, 0xF00F#16⟩,
   ⟨"8xy6", 0x8006#16, 0xF00F#16⟩, ⟨"8xy7", 0x8007#16, 0xF00F#16⟩, ⟨"8xyE", 0x800E#16, 0xF00F#16⟩]

/-- The rows of families 9 to D (R95). -/
def opcodeRowsMid : List Pattern :=
  [⟨"9xy0", 0x9000#16, 0xF00F#16⟩, ⟨"Annn", 0xA000#16, 0xF000#16⟩, ⟨"Bnnn", 0xB000#16, 0xF000#16⟩,
   ⟨"Cxkk", 0xC000#16, 0xF000#16⟩, ⟨"Dxyn", 0xD000#16, 0xF000#16⟩]

/-- The rows of families E and F (R96). -/
def opcodeRowsHigh : List Pattern :=
  [⟨"Ex9E", 0xE09E#16, 0xF0FF#16⟩, ⟨"ExA1", 0xE0A1#16, 0xF0FF#16⟩, ⟨"Fx07", 0xF007#16, 0xF0FF#16⟩,
   ⟨"Fx0A", 0xF00A#16, 0xF0FF#16⟩, ⟨"Fx15", 0xF015#16, 0xF0FF#16⟩, ⟨"Fx18", 0xF018#16, 0xF0FF#16⟩,
   ⟨"Fx1E", 0xF01E#16, 0xF0FF#16⟩, ⟨"Fx29", 0xF029#16, 0xF0FF#16⟩, ⟨"Fx33", 0xF033#16, 0xF0FF#16⟩,
   ⟨"Fx55", 0xF055#16, 0xF0FF#16⟩, ⟨"Fx65", 0xF065#16, 0xF0FF#16⟩]

/-- The opcode map of R95 and R96, written apart from the decoder. -/
def opcodeRows : List Pattern := opcodeRowsLow ++ opcodeRowsEight ++ opcodeRowsMid ++ opcodeRowsHigh

/-- A word is legal when it matches some pattern; every other word is illegal (R97). -/
def legalWord (w : Word) : Bool := opcodeRows.any (fun p => p.selects w)

/-- ROM_MAX: the bytes of program space, 4096 − 0x200 (R6). -/
def romMax : Nat := 3584

/-- A program image that `load` accepts has at most ROM_MAX bytes (R352). -/
def romFits (rom : List Byte) : Bool := rom.length ≤ romMax

end Sys2Proof
end

