-- ==== Sys2Proof/Decode.lean ====
section
/-! DEFINITION. The decoder (30_encoding.md R91 to R98), total on any bytes, and the encoder (R92, R100). -/

namespace Sys2Proof

/-- Why the decoder refuses: fewer than the two bytes of a word (R90), or a word that matches no pattern (R97). -/
inductive DecodeError where
  | truncated
  | unknownOpcode (w : Word)
  deriving DecidableEq, Repr

/-- The two bytes of a word, the high byte first (R63). -/
def bytesOfWord (w : Word) : Byte × Byte := (w.extractLsb' 8 8, w.extractLsb' 0 8)

/-- A word from its two bytes, the high byte first (R63). -/
def wordOfBytes (hi lo : Byte) : Word := hi ++ lo

/-- n1, the primary opcode: bits 15..12 (R91). -/
def n1 (w : Word) : BitVec 4 := w.extractLsb' 12 4

/-- n4, the secondary opcode of families 5, 8 and 9: bits 3..0 (R91). -/
def n4 (w : Word) : BitVec 4 := w.extractLsb' 0 4

/-- x, the first register index: bits 11..8 (R91). -/
def fieldX (w : Word) : Reg := (w.extractLsb' 8 4).toFin

/-- y, the second register index: bits 7..4 (R91). -/
def fieldY (w : Word) : Reg := (w.extractLsb' 4 4).toFin

/-- n, the row count of Dxyn: bits 3..0 (R91). -/
def fieldN (w : Word) : Fin 16 := (w.extractLsb' 0 4).toFin

/-- kk: bits 7..0 (R91). -/
def fieldKK (w : Word) : Byte := w.extractLsb' 0 8

/-- nnn: bits 11..0 (R91). -/
def fieldNNN (w : Word) : BitVec 12 := w.extractLsb' 0 12

/-- Family 0: two whole-word patterns, every other 0nnn unknown (R95). -/
def decodeZero (w : Word) : Option Instr :=
  if w = 0x00E0#16 then some .cls else if w = 0x00EE#16 then some .ret else none

/-- Family 8 by n4 (R96). -/
def decodeEight (w : Word) : Option Instr :=
  match n4 w with
  | 0x0#4 => some (.ldReg (fieldX w) (fieldY w))
  | 0x1#4 => some (.orReg (fieldX w) (fieldY w))
  | 0x2#4 => some (.andReg (fieldX w) (fieldY w))
  | 0x3#4 => some (.xorReg (fieldX w) (fieldY w))
  | 0x4#4 => some (.addReg (fieldX w) (fieldY w))
  | 0x5#4 => some (.subReg (fieldX w) (fieldY w))
  | 0x6#4 => some (.shr (fieldX w) (fieldY w))
  | 0x7#4 => some (.subnReg (fieldX w) (fieldY w))
  | 0xE#4 => some (.shl (fieldX w) (fieldY w))
  | _ => none

/-- Family E by kk (R96). -/
def decodeKeys (w : Word) : Option Instr :=
  match fieldKK w with
  | 0x9E#8 => some (.skp (fieldX w))
  | 0xA1#8 => some (.sknp (fieldX w))
  | _ => none

/-- Family F by kk (R96). -/
def decodeMisc (w : Word) : Option Instr :=
  match fieldKK w with
  | 0x07#8 => some (.ldFromDT (fieldX w))
  | 0x0A#8 => some (.ldKey (fieldX w))
  | 0x15#8 => some (.ldToDT (fieldX w))
  | 0x18#8 => some (.ldToST (fieldX w))
  | 0x1E#8 => some (.addI (fieldX w))
  | 0x29#8 => some (.ldFont (fieldX w))
  | 0x33#8 => some (.ldBcd (fieldX w))
  | 0x55#8 => some (.storeRegs (fieldX w))
  | 0x65#8 => some (.loadRegs (fieldX w))
  | _ => none

/-- The instruction a word stands for, or `none` when it matches no pattern (R94, R95). -/
def decodeWord (w : Word) : Option Instr :=
  match n1 w with
  | 0x0#4 => decodeZero w
  | 0x1#4 => some (.jp (fieldNNN w))
  | 0x2#4 => some (.call (fieldNNN w))
  | 0x3#4 => some (.seImm (fieldX w) (fieldKK w))
  | 0x4#4 => some (.sneImm (fieldX w) (fieldKK w))
  | 0x5#4 => if n4 w = 0x0#4 then some (.seReg (fieldX w) (fieldY w)) else none
  | 0x6#4 => some (.ldImm (fieldX w) (fieldKK w))
  | 0x7#4 => some (.addImm (fieldX w) (fieldKK w))
  | 0x8#4 => decodeEight w
  | 0x9#4 => if n4 w = 0x0#4 then some (.sneReg (fieldX w) (fieldY w)) else none
  | 0xA#4 => some (.ldI (fieldNNN w))
  | 0xB#4 => some (.jpV0 (fieldNNN w))
  | 0xC#4 => some (.rnd (fieldX w) (fieldKK w))
  | 0xD#4 => some (.drw (fieldX w) (fieldY w) (fieldN w))
  | 0xE#4 => decodeKeys w
  | 0xF#4 => decodeMisc w
  | _ => none

/-- The instruction at the front of a byte sequence, high byte first, with the bytes after it (R63, R90). -/
def decodeBytes : List Byte → Except DecodeError (Instr × List Byte)
  | hi :: lo :: rest =>
    match decodeWord (wordOfBytes hi lo) with
    | some i => .ok (i, rest)
    | none => .error (.unknownOpcode (wordOfBytes hi lo))
  | _ => .error .truncated

/-- The decoder on a word numbered as spec/opcode_table.json numbers it: one 16-bit word, bit 0 the least
significant, laid out in memory high byte first. -/
def decodeTableWord (nbits w : Nat) : Option Instr :=
  let word : Word := BitVec.ofNat 16 (w % 2 ^ nbits)
  match decodeBytes [(bytesOfWord word).1, (bytesOfWord word).2] with
  | .ok (i, _) => some i
  | .error _ => none

/-- Format NNN: `n1*0x1000 + nnn` (R92, R100). -/
def formNNN (op : BitVec 4) (nnn : BitVec 12) : Word := BitVec.ofNat 16 (op.toNat * 0x1000 + nnn.toNat)

/-- Format XKK, and XOO with a fixed kk: `n1*0x1000 + x*0x100 + kk` (R92, R100). -/
def formXKK (op : BitVec 4) (x : Reg) (kk : Byte) : Word :=
  BitVec.ofNat 16 (op.toNat * 0x1000 + x.val * 0x100 + kk.toNat)

/-- Format XYN, and XYO with a fixed n4: `n1*0x1000 + x*0x100 + y*0x10 + n` (R92, R100). -/
def formXYN (op : BitVec 4) (x y : Reg) (n : BitVec 4) : Word :=
  BitVec.ofNat 16 (op.toNat * 0x1000 + x.val * 0x100 + y.val * 0x10 + n.toNat)

/-- The word of an instruction (R92, R95, R96). -/
def encode : Instr → Word
  | .cls => 0x00E0#16
  | .ret => 0x00EE#16
  | .jp nnn => formNNN 0x1#4 nnn
  | .call nnn => formNNN 0x2#4 nnn
  | .seImm x kk => formXKK 0x3#4 x kk
  | .sneImm x kk => formXKK 0x4#4 x kk
  | .seReg x y => formXYN 0x5#4 x y 0x0#4
  | .ldImm x kk => formXKK 0x6#4 x kk
  | .addImm x kk => formXKK 0x7#4 x kk
  | .ldReg x y => formXYN 0x8#4 x y 0x0#4
  | .orReg x y => formXYN 0x8#4 x y 0x1#4
  | .andReg x y => formXYN 0x8#4 x y 0x2#4
  | .xorReg x y => formXYN 0x8#4 x y 0x3#4
  | .addReg x y => formXYN 0x8#4 x y 0x4#4
  | .subReg x y => formXYN 0x8#4 x y 0x5#4
  | .shr x y => formXYN 0x8#4 x y 0x6#4
  | .subnReg x y => formXYN 0x8#4 x y 0x7#4
  | .shl x y => formXYN 0x8#4 x y 0xE#4
  | .sneReg x y => formXYN 0x9#4 x y 0x0#4
  | .ldI nnn => formNNN 0xA#4 nnn
  | .jpV0 nnn => formNNN 0xB#4 nnn
  | .rnd x kk => formXKK 0xC#4 x kk
  | .drw x y n => formXYN 0xD#4 x y (BitVec.ofFin (w := 4) n)
  | .skp x => formXKK 0xE#4 x 0x9E#8
  | .sknp x => formXKK 0xE#4 x 0xA1#8
  | .ldFromDT x => formXKK 0xF#4 x 0x07#8
  | .ldKey x => formXKK 0xF#4 x 0x0A#8
  | .ldToDT x => formXKK 0xF#4 x 0x15#8
  | .ldToST x => formXKK 0xF#4 x 0x18#8
  | .addI x => formXKK 0xF#4 x 0x1E#8
  | .ldFont x => formXKK 0xF#4 x 0x29#8
  | .ldBcd x => formXKK 0xF#4 x 0x33#8
  | .storeRegs x => formXKK 0xF#4 x 0x55#8
  | .loadRegs x => formXKK 0xF#4 x 0x65#8

/-- The two bytes of an instruction as memory holds them (R63, R90). -/
def encodeBytes (i : Instr) : List Byte := [(bytesOfWord (encode i)).1, (bytesOfWord (encode i)).2]

end Sys2Proof
end

