-- ==== Sys2Proof/Config.lean ====
section
/-! DEFINITION. What an implementation fixes (the parameters of 00_scope.md R7) and the free values: constants
with no body for what the spec leaves as a draw (00_scope.md R18). -/

namespace Sys2Proof

/-- The two readings of register 0xF as an operand of a family-8 flag writer (R7, R194). -/
inductive VfAliasMode where
  | sequential
  | fault
  deriving DecidableEq, Repr

/-- The named parameters of R7. The bound of `fontBase` keeps the 80 font bytes inside the 4096-byte memory. -/
structure Config where
  /-- FONT_BASE: the address of glyph 0 (R7, R69). -/
  fontBase : Fin 4017
  /-- FONT_TABLE: 16 glyphs of 5 bytes (R7, R70). -/
  fontTable : Vector Byte 80
  /-- ENFORCE_PROGRAM_FLOOR: a fetch below 0x200 faults (R72). -/
  enforceProgramFloor : Bool
  /-- ENFORCE_FONT_READONLY: a store into the font region faults (R71). -/
  enforceFontReadonly : Bool
  /-- VF_ALIAS_MODE (R194). -/
  vfAliasMode : VfAliasMode
  deriving DecidableEq, Repr

/-- The default FONT_TABLE of R70, glyph by glyph. PRESUMED by the spec itself (general knowledge): log entry 3. -/
def Config.defaultFont : Vector Byte 80 :=
  #v[0xF0, 0x90, 0x90, 0x90, 0xF0,  0x20, 0x60, 0x20, 0x20, 0x70,  0xF0, 0x10, 0xF0, 0x80, 0xF0,
     0xF0, 0x10, 0xF0, 0x10, 0xF0,  0x90, 0x90, 0xF0, 0x10, 0x10,  0xF0, 0x80, 0xF0, 0x10, 0xF0,
     0xF0, 0x80, 0xF0, 0x90, 0xF0,  0xF0, 0x10, 0x20, 0x40, 0x40,  0xF0, 0x90, 0xF0, 0x90, 0xF0,
     0xF0, 0x90, 0xF0, 0x10, 0xF0,  0xF0, 0x90, 0xF0, 0x90, 0x90,  0xE0, 0x90, 0xE0, 0x90, 0xE0,
     0xF0, 0x80, 0x80, 0x80, 0xF0,  0xE0, 0x90, 0x90, 0x90, 0xE0,  0xF0, 0x80, 0xF0, 0x80, 0xF0,
     0xF0, 0x80, 0xF0, 0x80, 0x80]

/-- The default of every parameter (R7). -/
def Config.default : Config where
  fontBase := 0x050
  fontTable := Config.defaultFont
  enforceProgramFloor := true
  enforceFontReadonly := true
  vfAliasMode := .sequential

/-- FREE VALUE (R73, D3): the byte at an address that no load image and no store has written, for the n-th draw of
memory. It has no body, so no proof can know it. Log entry 1. -/
opaque Config.memoryDraw : Nat → Nat → Byte

/-- FREE VALUE (R191, D20): the random byte of the n-th step whose host transaction names none. Log entry 2. -/
opaque Config.randomByte : Nat → Byte

end Sys2Proof
end

