-- ==== Sys2Proof/Machine/State.lean ====
section
/-! DEFINITION. The whole state of the core, its error kinds and its outputs (10_state.md R20 to R38,
40_engine.md R129, 60_exceptions.md R310), and the state right after reset. -/

namespace Sys2Proof.Machine

/-- The info of an `OutOfBoundsError` (R310). -/
inductive OutOfBounds where
  /-- A fetch at a PC with PC + 1 > 0xFFF (R125). -/
  | fetch (pc : Word)
  /-- Fx1E with a sum above 0xFFF (R221). -/
  | indexAdd (t : Nat)
  /-- Fx33, Fx55, Fx65 with `c` bytes from `a` passing 0xFFF (R226). -/
  | memRange (a c : Nat)
  /-- Dxyn: the first sprite row address above 0xFFF (R251). -/
  | sprite (a : Nat)
  deriving DecidableEq, Repr

/-- The info of a `SpecFault` (R310). -/
inductive SpecFault where
  /-- A fetch with PC < 0x200 under ENFORCE_PROGRAM_FLOOR (R125). -/
  | fetchBelowProgramSpace (pc : Word)
  /-- A store from `a` that meets the font region under ENFORCE_FONT_READONLY (R227). -/
  | fontWrite (a : Nat)
  /-- Ex9E, ExA1 with a register value above 0xF (R286). -/
  | keyIndexRange (v : Byte)
  /-- A family-8 flag writer naming VF under VF_ALIAS_MODE = fault (R194). -/
  | vfAlias (w : Word)
  deriving DecidableEq, Repr

/-- The error kinds of R310. Every one of them is the RESULT of a transaction (`Status`), after which the machine is
in the next state R127 gives and goes on (R131): the step answers `next`, and no step of this model answers the
outcome `fault`. Each is safe, being the spec's own effect. -/
inductive Fault where
  /-- Code 1: a step before a load (R123). Raised by `stepWith`. -/
  | notLoaded
  /-- Code 2: raised by the fetch, Fx1E, Fx33, Fx55, Fx65; reported and not raised by Dxyn. -/
  | outOfBounds (info : OutOfBounds)
  /-- Code 3: 2nnn with SP = 16 (R152). -/
  | stackOverflow (sp : Nat)
  /-- Code 4: 00EE with SP = 0 (R150). -/
  | stackUnderflow (sp : Nat)
  /-- Code 5: a fetched word that matches no pattern (R97, R126). -/
  | unknownOpcode (w : Word)
  /-- Code 6: a load of more than 3584 bytes (R352). -/
  | capacity (len : Nat)
  /-- Code 7: a check this spec adds to an invariant of its source (R310). -/
  | specFault (info : SpecFault)
  deriving DecidableEq, Repr

/-- Why `exec` has no meaning for an instruction. No arm of `exec` gives this answer: every instruction has its
meaning. Safe: a refusal stops the run. -/
inductive Refusal where
  /-- The instruction named has no meaning yet. -/
  | notModelled (mnemonic : String)
  deriving DecidableEq, Repr

/-- The status a transaction returns (R129; `load` returns `ok` or `fault (capacity n)`, R351, R352). -/
inductive Status where
  | ok
  | awaitingKey
  | nonFatal (e : Fault)
  | fault (e : Fault)
  deriving DecidableEq, Repr

/-- The key vector K, one Boolean per key (R35). -/
abbrev Keys := Vector Bool 16

/-- The display buffer D, 32 rows of 64 pixels, row 0 at the top, column 0 at the left (R34). -/
abbrev Display := Vector (Vector Bool 64) 32

/-- One of the three transactions the host can issue, with its arguments (R17, R120, R121). -/
inductive Transaction where
  /-- `load(rom)` (R351). -/
  | load (rom : List Byte)
  /-- `step(K, r)` (R121). -/
  | step (K : Keys) (r : Byte)
  /-- `tick_timers()` (R320). -/
  | tickTimers
  deriving DecidableEq, Repr

/-- The state: the tuple `(M, V, I, PC, SP, S, DT, ST, D, loaded, W)` of R37 under its own names, the parameters of
R7, the host's inputs (R35) and the outputs of the last transaction (R36). -/
structure State where
  /-- The parameters (R7); no transaction changes them. -/
  cfg : Config
  /-- Memory M: the bytes that differ from what an unlisted address reads as, addresses rising (R60). -/
  M : List Host.Cell
  /-- The number of the draw that fills the memory `load` does not write (R73). The model's own field. -/
  memDraw : Nat
  /-- V0..VF (R20). -/
  V : Vector Byte 16
  /-- The index register (R26). -/
  I : Word
  /-- The program counter (R28). -/
  PC : Word
  /-- The stack pointer: how many slots are in use, 0..16 (R31). -/
  SP : Fin 17
  /-- The sixteen return-address slots (R31). -/
  S : Vector Word 16
  /-- The delay timer (R33). -/
  DT : Byte
  /-- The sound timer (R33). -/
  ST : Byte
  /-- The display buffer (R34). -/
  D : Display
  /-- A load has succeeded (R37). -/
  loaded : Bool
  /-- W: `some x` while Fx0A waits to write V[x] (R37). -/
  W : Option Reg
  /-- The key vector the host last supplied (R35): an input latch. -/
  keys : Keys
  /-- The random byte of the current step (R35): an input latch. -/
  rand : Byte
  /-- The number of the next random draw (R191, D20). The model's own field. -/
  randDraw : Nat
  /-- The transactions the host has lined up, the next one first (R120). The model's own field. -/
  pending : List Transaction
  /-- The status the last load or step returned (R129): an output latch. -/
  status : Status
  /-- The redraw output of the last step (R130): an output latch. -/
  redraw : Bool
  deriving DecidableEq, Repr

/-- What a transaction answers. -/
abbrev Result := Host.Outcome State Fault Refusal

/-- The display with every pixel clear. -/
abbrev Display.blank : Display := Vector.replicate 32 (Vector.replicate 64 false)

/-- The state right after reset: the state a successful `load` of an empty ROM leaves (R38, R351, R354; `load` is the
core's only reset, R353). The values the spec does not give (the stack slots, the latches, the model's own fields)
are named in log entries 4, 5 and 6. -/
def State.reset : State where
  cfg := Config.default
  M := []
  memDraw := 0
  V := Vector.replicate 16 0
  I := 0
  PC := 0x200
  SP := 0
  S := Vector.replicate 16 0
  DT := 0
  ST := 0
  D := Display.blank
  loaded := true
  W := none
  keys := Vector.replicate 16 false
  rand := 0
  randDraw := 0
  pending := []
  status := .ok
  redraw := false

end Sys2Proof.Machine
end

