-- ==== Sys2Proof/Machine/Ops.lean ====
section
/-! DEFINITION. The shared operations over memory, registers, stack and display, and the one way an error is taken
(00_scope.md R10 to R12, 20_memory.md, 10_state.md R32, 60_exceptions.md R313). -/

namespace Sys2Proof.Machine

/-! ### Memory as a canonical list of cells -/

/-- The byte listed at an address. -/
def Memory.lookup : List Host.Cell → Nat → Option Byte
  | [], _ => none
  | (k, b) :: t, a => if k = a then some b else Memory.lookup t a

/-- List a byte at an address, keeping the addresses rising. -/
def Memory.insert (a : Nat) (b : Byte) : List Host.Cell → List Host.Cell
  | [] => [(a, b)]
  | (k, c) :: t =>
    if a < k then (a, b) :: (k, c) :: t
    else if a = k then (a, b) :: t
    else (k, c) :: Memory.insert a b t

/-- Drop the entry of an address. -/
def Memory.erase (a : Nat) : List Host.Cell → List Host.Cell
  | [] => []
  | (k, c) :: t => if k = a then Memory.erase a t else (k, c) :: Memory.erase a t

/-- Store a byte: the byte an unlisted address is known to read as (`image`) is not listed. -/
def Memory.write (image : Nat → Option Byte) (a : Nat) (b : Byte) (m : List Host.Cell) : List Host.Cell :=
  if image a = some b then Memory.erase a m else Memory.insert a b m

/-- The cells of a byte sequence from an address on, none that equals its image. -/
def Memory.ofBytes (image : Nat → Option Byte) : Nat → List Byte → List Host.Cell
  | _, [] => []
  | a, b :: bs =>
    if image a = some b then Memory.ofBytes image (a + 1) bs else (a, b) :: Memory.ofBytes image (a + 1) bs

/-- The canonical form: addresses strictly rising and inside memory (R60), no entry equal to its image. -/
abbrev Memory.wf (image : Nat → Option Byte) (m : List Host.Cell) : Prop :=
  m.Pairwise (fun p q => p.1 < q.1) ∧ ∀ c ∈ m, c.1 < 4096 ∧ image c.1 ≠ some c.2

/-- The font byte at an address of the font region, none elsewhere (R69, R70). -/
def fontByte (cfg : Config) (a : Nat) : Option Byte :=
  if h : cfg.fontBase.val ≤ a ∧ a < cfg.fontBase.val + 80 then
    some (cfg.fontTable[a - cfg.fontBase.val]'(by omega))
  else none

/-- What an unlisted address is KNOWN to read as: after a load the font bytes (R69), before it nothing (R350). -/
def State.image (s : State) (a : Nat) : Option Byte := if s.loaded then fontByte s.cfg a else none

/-- MemRead(a, 1) (R11): the listed byte, else the font byte, else this memory's draw (R73; log entry 1). -/
def State.readByte (s : State) (a : Nat) : Byte :=
  match Memory.lookup s.M a with
  | some b => b
  | none => (s.image a).getD (Config.memoryDraw s.memDraw a)

/-- MemWrite(a, 1, b) (R11). -/
def State.writeByte (a : Nat) (b : Byte) (s : State) : State := { s with M := Memory.write s.image a b s.M }

/-- Store bytes at consecutive addresses, the first at the lowest (R64). -/
def State.writeBytes : Nat → List Byte → State → State
  | _, [], s => s
  | a, b :: bs, s => State.writeBytes (a + 1) bs (s.writeByte a b)

/-! ### Registers -/

/-- V[x] (R10, R20). -/
def State.getV (s : State) (x : Reg) : Byte := s.V[x]

/-- V[x] <- b (R10, R20). No register is hard-wired. -/
def State.setV (x : Reg) (b : Byte) (s : State) : State := { s with V := s.V.set x b }

/-- VF <- b as a flag (R24). -/
def State.setVF (b : Byte) (s : State) : State := s.setV vf b

/-- I <- a (R26). -/
def State.setI (a : Word) (s : State) : State := { s with I := a }

/-- PC <- target (R10, R28). -/
def State.setPC (a : Word) (s : State) : State := { s with PC := a }

/-- PC <- PC + 2: the advance of a fetch (R126) and of a taken skip (R158). -/
def State.advance (s : State) : State := s.setPC (s.PC + 2)

/-- DT <- b (R33). -/
def State.setDT (b : Byte) (s : State) : State := { s with DT := b }

/-- ST <- b (R33). -/
def State.setST (b : Byte) (s : State) : State := { s with ST := b }

/-- W <- w (R37). -/
def State.setW (w : Option Reg) (s : State) : State := { s with W := w }

/-- S and SP after a push or a pop (R32). -/
def State.setStack (slots : Vector Word 16) (sp : Fin 17) (s : State) : State := { s with S := slots, SP := sp }

/-- D <- d (R34). -/
def State.setD (d : Display) (s : State) : State := { s with D := d }

/-! ### Display -/

/-- D[py][px] (R34). -/
def State.pixel (s : State) (px : Fin 64) (py : Fin 32) : Bool := s.D[py][px]

/-- D[py][px] <- D[py][px] ^ 1 (R251). -/
def State.togglePixel (px : Fin 64) (py : Fin 32) (s : State) : State :=
  s.setD (s.D.set py (s.D[py].set px (!s.D[py][px])))

/-! ### Ends of a transaction -/

/-- The outputs of a step: its status and its redraw flag (R129, R130). -/
def State.output (st : Status) (rd : Bool) (s : State) : State := { s with status := st, redraw := rd }

/-- A completed step with the given status and redraw. -/
def finish (st : Status) (rd : Bool) (s : State) : Result := .next (s.output st rd)

/-- An instruction that completes with status Ok and no redraw (R122, R129, R130). -/
def complete (s : State) : Result := finish .ok false s

/-- TAKING AN ERROR, `raise E(info)` (R12, R127, R313): the one entry for every error of a step. There is no vector
and no saved state: the error becomes the step's status, redraw is false, and nothing else of the state it is raised
in changes. `s` is the state of R127: after a fetch, the state the fetch left. There is no return instruction
(R314): the host resumes by issuing its next transaction, which `serve` takes from this state. -/
def raise (e : Fault) (s : State) : Result := finish (.fault e) false s

/-- Run a check or an operation that may raise, on the state the error would leave, then go on with its result. -/
def attempt {α : Type} (r : Except Fault α) (s : State) (k : α → Result) : Result :=
  match r with
  | .error e => raise e s
  | .ok a => k a

/-- The codes of the error kinds (R310). -/
def Fault.code : Fault → Nat
  | .notLoaded => 1
  | .outOfBounds _ => 2
  | .stackOverflow _ => 3
  | .stackUnderflow _ => 4
  | .unknownOpcode _ => 5
  | .capacity _ => 6
  | .specFault _ => 7

/-! ### Stack -/

/-- push(a): StackOverflowError(SP) when SP = 16, else S[SP] <- a and SP <- SP + 1 (R32). -/
def State.push (a : Word) (s : State) : Except Fault State :=
  if h : s.SP.val < 16 then
    .ok (s.setStack (s.S.set s.SP.val a h) ⟨s.SP.val + 1, by omega⟩)
  else .error (.stackOverflow s.SP.val)

/-- pop(): StackUnderflowError(SP) when SP = 0, else SP <- SP - 1 and the slot there; the slot keeps its value
(R32, R150). -/
def State.pop (s : State) : Except Fault (Word × State) :=
  if h : 0 < s.SP.val then
    .ok (s.S[s.SP.val - 1]'(by omega), s.setStack s.S ⟨s.SP.val - 1, by omega⟩)
  else .error (.stackUnderflow s.SP.val)

/-! ### Checks before an access -/

/-- CheckRange(a, c) (R226). -/
def checkRange (a c : Nat) : Except Fault Unit :=
  if a + c - 1 > 0xFFF then .error (.outOfBounds (.memRange a c)) else .ok ()

/-- CheckFontWrite(a, c) (R227). -/
def checkFontWrite (cfg : Config) (a c : Nat) : Except Fault Unit :=
  if cfg.enforceFontReadonly = true ∧ a ≤ cfg.fontBase.val + 79 ∧ a + c - 1 ≥ cfg.fontBase.val then
    .error (.specFault (.fontWrite a))
  else .ok ()

/-- CheckKeyIndex(v), answering the key index (R286). -/
def checkKeyIndex (v : Byte) : Except Fault Reg :=
  if h : v.toNat ≤ 0xF then .ok ⟨v.toNat, by omega⟩ else .error (.specFault (.keyIndexRange v))

end Sys2Proof.Machine
end

