-- ==== Sys2Proof/Machine/Flags.lean ====
section
/-! DEFINITION. The values VF is given as a flag (42_alu.md R186 to R190) and the VF alias check (R194). -/

namespace Sys2Proof.Machine

/-- A flag value: 1 or 0. -/
def flag (b : Bool) : Byte := if b then 1 else 0

/-- 1 when a + b > 255, else 0: the carry of 8xy4 (R186). -/
def carryFlag (a b : Byte) : Byte := flag (decide (a.toNat + b.toNat > 255))

/-- 1 when a > b strictly, else 0: the flag of 8xy5 and 8xy7 (R187, R189). -/
def greaterFlag (a b : Byte) : Byte := flag (decide (a.toNat > b.toNat))

/-- Bit 0, shifted out by 8xy6 (R188). -/
def lowBitFlag (a : Byte) : Byte := a &&& 1

/-- Bit 7, shifted out by 8xyE (R190). -/
def highBitFlag (a : Byte) : Byte := (a >>> 7) &&& 1

/-- Under VF_ALIAS_MODE = fault an instruction that names VF as an operand raises SpecFault(vf_alias, w) after fetch
and before execution; under `sequential` it runs (R122, R194). -/
def checkVfAlias (cfg : Config) (namesVF : Bool) (i : Instr) : Except Fault Unit :=
  if cfg.vfAliasMode = .fault ∧ namesVF = true then .error (.specFault (.vfAlias (encode i))) else .ok ()

end Sys2Proof.Machine
end

