-- ==== Sys2Proof/Machine/Operands.lean ====
section
/-! DEFINITION. How the operand forms are read (30_encoding.md R93) and the operand values the rules compute. -/

namespace Sys2Proof.Machine

/-- zext_16(nnn): an absolute 12-bit address (R93). -/
def addressOf (nnn : BitVec 12) : Word := nnn.setWidth 16

/-- zext_16(nnn) + V[0], 0..0x10FE, with no wrap and no 12-bit mask (R157). -/
def offsetTarget (nnn : BitVec 12) (s : State) : Word := addressOf nnn + (s.getV 0).setWidth 16

/-- The address I + k of byte k of a memory operand, exact (43_index_memory.md, the one addressing mode). -/
def State.indexed (s : State) (k : Nat) : Nat := s.I.toNat + k

/-- The registers V[0]..V[x], in order (R224, R225). -/
def regsUpTo (x : Reg) : List Reg := (List.finRange 16).take (x.val + 1)

/-- The values of V[0]..V[x], in order (R224). -/
def State.valuesUpTo (s : State) (x : Reg) : List Byte := (regsUpTo x).map s.getV

/-- The decimal digits of a byte: hundreds, tens, ones (R223). -/
def bcdDigits (v : Byte) : List Byte :=
  [BitVec.ofNat 8 (v.toNat / 100), BitVec.ofNat 8 (v.toNat / 10 % 10), BitVec.ofNat 8 (v.toNat % 10)]

/-- FONT_BASE + (v & 0xF) * 5 (R222). -/
def glyphAddress (cfg : Config) (v : Byte) : Word :=
  BitVec.ofNat 16 (cfg.fontBase.val + (v &&& 0xF#8).toNat * 5)

/-- The display column of sprite column `col` from the origin value V[x]: (V[x] mod 64 + col) mod 64 (R251, R253). -/
def spriteColumn (vx : Byte) (col : Nat) : Fin 64 := Fin.ofNat 64 (vx.toNat % 64 + col)

/-- The display row of sprite row `row` from the origin value V[y]: (V[y] mod 32 + row) mod 32 (R251, R253). -/
def spriteRow (vy : Byte) (row : Nat) : Fin 32 := Fin.ofNat 32 (vy.toNat % 32 + row)

/-- Bit 7 - col of a sprite byte: column 0 is the most significant bit (R251, R252). -/
def spriteBit (b : Byte) (col : Nat) : Bool := b.getLsbD (7 - col)

/-- min { k | K[k] }: the lowest pressed key, none when no key is pressed (R124, R283; D16). -/
def lowestKey (K : Keys) : Option Reg := (List.finRange 16).find? (fun k => K[k])

/-- zext_8(k): the code of a key as a register value (R124, R283). -/
def keyCode (k : Reg) : Byte := BitVec.ofNat 8 k.val

end Sys2Proof.Machine
end

