-- ==== Sys2Proof/Machine/Alu.lean ====
section
/-! DEFINITION. Register loads and arithmetic-logic instructions (42_alu.md R180 to R194). The statements of a rule
run in order and each reads the registers the one before left (R13); the flag writers of family 8 therefore read
the new VF where VF is an operand (R194). -/

namespace Sys2Proof.Machine

/-- 6xkk: V[x] <- kk (R180). -/
def execLdImm (x : Reg) (kk : Byte) (s : State) : Result := complete (s.setV x kk)

/-- 7xkk: V[x] <- (V[x] + kk) mod 256, VF not a carry (R181). -/
def execAddImm (x : Reg) (kk : Byte) (s : State) : Result := complete (s.setV x (s.getV x + kk))

/-- 8xy0: V[x] <- V[y] (R182). -/
def execLdReg (x y : Reg) (s : State) : Result := complete (s.setV x (s.getV y))

/-- 8xy1: V[x] <- V[x] | V[y] (R183). -/
def execOrReg (x y : Reg) (s : State) : Result := complete (s.setV x (s.getV x ||| s.getV y))

/-- 8xy2: V[x] <- V[x] & V[y] (R184). -/
def execAndReg (x y : Reg) (s : State) : Result := complete (s.setV x (s.getV x &&& s.getV y))

/-- 8xy3: V[x] <- V[x] ^ V[y] (R185). -/
def execXorReg (x y : Reg) (s : State) : Result := complete (s.setV x (s.getV x ^^^ s.getV y))

/-- The statements of 8xy4: the sum is taken before VF is written (R186). -/
def addStatements (x y : Reg) (s : State) : State :=
  (s.setVF (carryFlag (s.getV x) (s.getV y))).setV x (s.getV x + s.getV y)

/-- 8xy4: add with carry (R186, R194). -/
def execAddReg (x y : Reg) (s : State) : Result :=
  attempt (checkVfAlias s.cfg (x == vf || y == vf) (.addReg x y)) s fun _ => complete (addStatements x y s)

/-- The second statement of 8xy5: V[x] <- (V[x] - V[y]) mod 256 (R187). -/
def subInto (x y : Reg) (s : State) : State := s.setV x (s.getV x - s.getV y)

/-- 8xy5: subtract, VF strict (R187, R194). -/
def execSubReg (x y : Reg) (s : State) : Result :=
  attempt (checkVfAlias s.cfg (x == vf || y == vf) (.subReg x y)) s fun _ =>
    complete (subInto x y (s.setVF (greaterFlag (s.getV x) (s.getV y))))

/-- The second statement of 8xy6: V[x] <- V[x] >> 1 (R188). -/
def shiftRightInto (x : Reg) (s : State) : State := s.setV x (s.getV x >>> 1)

/-- 8xy6: shift V[x] right in place; V[y] is not read, and only x = 0xF aliases VF (R188, R194). -/
def execShr (x y : Reg) (s : State) : Result :=
  attempt (checkVfAlias s.cfg (x == vf) (.shr x y)) s fun _ =>
    complete (shiftRightInto x (s.setVF (lowBitFlag (s.getV x))))

/-- The second statement of 8xy7: V[x] <- (V[y] - V[x]) mod 256 (R189). -/
def subnInto (x y : Reg) (s : State) : State := s.setV x (s.getV y - s.getV x)

/-- 8xy7: reverse subtract, VF strict (R189, R194). -/
def execSubnReg (x y : Reg) (s : State) : Result :=
  attempt (checkVfAlias s.cfg (x == vf || y == vf) (.subnReg x y)) s fun _ =>
    complete (subnInto x y (s.setVF (greaterFlag (s.getV y) (s.getV x))))

/-- The second statement of 8xyE: V[x] <- (V[x] << 1) mod 256 (R190). -/
def shiftLeftInto (x : Reg) (s : State) : State := s.setV x (s.getV x <<< 1)

/-- 8xyE: shift V[x] left in place; V[y] is not read, and only x = 0xF aliases VF (R190, R194). -/
def execShl (x y : Reg) (s : State) : Result :=
  attempt (checkVfAlias s.cfg (x == vf) (.shl x y)) s fun _ =>
    complete (shiftLeftInto x (s.setVF (highBitFlag (s.getV x))))

/-- Cxkk: V[x] <- r & kk, r the step's random byte (R191). -/
def execRnd (x : Reg) (kk : Byte) (s : State) : Result := complete (s.setV x (s.rand &&& kk))

end Sys2Proof.Machine
end

