-- ==== Sys2Proof/Machine/Draw.lean ====
section
/-! DEFINITION. Display instructions and collision logic (44_display.md R250 to R256). -/

namespace Sys2Proof.Machine

/-- 00E0: every pixel 0, redraw (R250). -/
def execCls (s : State) : Result := finish .ok true (s.setD Display.blank)

/-- One set sprite bit at a pixel: VF <- 1 if the pixel is set, then the pixel toggles (R251, R254). -/
def drawPixel (px : Fin 64) (py : Fin 32) (s : State) : State :=
  (if s.pixel px py then s.setVF (flag true) else s).togglePixel px py

/-- The columns listed of one sprite byte on display row `py`, the origin column taken from `vx` (R251). -/
def drawColumns (b vx : Byte) (py : Fin 32) : List Nat → State → State
  | [], s => s
  | col :: cols, s =>
    drawColumns b vx py cols (if spriteBit b col then drawPixel (spriteColumn vx col) py s else s)

/-- `k` sprite rows from row `row` on, with the first row address above 0xFFF where the drawing stopped (R251). -/
def drawRows (vx vy : Byte) : Nat → Nat → State → State × Option Nat
  | 0, _, s => (s, none)
  | k + 1, row, s =>
    if s.indexed row > 0xFFF then (s, some (s.indexed row))
    else
      drawRows vx vy k (row + 1)
        (drawColumns (s.readByte (s.indexed row)) vx (spriteRow vy row) (List.range 8) s)

/-- The status of a draw: NonFatal with the address where it stopped, else Ok (R251; C3). -/
def drawStatus : Option Nat → Status
  | some a => .nonFatal (.outOfBounds (.sprite a))
  | none => .ok

/-- Dxyn: origin from V[x], V[y] read before VF is reset, n rows from I, redraw in every case (R251). -/
def execDrw (x y : Reg) (n : Fin 16) (s : State) : Result :=
  let drawn := drawRows (s.getV x) (s.getV y) n.val 0 (s.setVF (flag false))
  finish (drawStatus drawn.2) true drawn.1

end Sys2Proof.Machine
end

