-- ==== Sys2Proof/Machine/Flow.lean ====
section
/-! DEFINITION. Control transfer and skips (41_flow.md R150 to R159). PC already holds the instruction's address
plus 2 (R126). -/

namespace Sys2Proof.Machine

/-- A skip adds 2 to PC when its condition holds, whatever the bytes passed over hold (R158). -/
def skipIf (c : Bool) (s : State) : Result := complete (if c then s.advance else s)

/-- 00EE: PC <- pop() (R150). -/
def execRet (s : State) : Result := attempt s.pop s fun p => complete (p.2.setPC p.1)

/-- 1nnn: PC <- nnn (R151). -/
def execJp (nnn : BitVec 12) (s : State) : Result := complete (s.setPC (addressOf nnn))

/-- 2nnn: push(PC), then PC <- nnn (R152). -/
def execCall (nnn : BitVec 12) (s : State) : Result :=
  attempt (s.push s.PC) s fun s' => complete (s'.setPC (addressOf nnn))

/-- 3xkk: skip if V[x] = kk (R153). -/
def execSeImm (x : Reg) (kk : Byte) (s : State) : Result := skipIf (s.getV x == kk) s

/-- 4xkk: skip if V[x] ≠ kk (R154). -/
def execSneImm (x : Reg) (kk : Byte) (s : State) : Result := skipIf (s.getV x != kk) s

/-- 5xy0: skip if V[x] = V[y] (R155). -/
def execSeReg (x y : Reg) (s : State) : Result := skipIf (s.getV x == s.getV y) s

/-- 9xy0: skip if V[x] ≠ V[y] (R156). -/
def execSneReg (x y : Reg) (s : State) : Result := skipIf (s.getV x != s.getV y) s

/-- Bnnn: PC <- nnn + V[0], not wrapped and not checked (R157). -/
def execJpV0 (nnn : BitVec 12) (s : State) : Result := complete (s.setPC (offsetTarget nnn s))

end Sys2Proof.Machine
end

