-- ==== Sys2Proof/Machine/Index.lean ====
section
/-! DEFINITION. Index register and memory instructions (43_index_memory.md R220 to R227). -/

namespace Sys2Proof.Machine

/-- Annn: I <- nnn (R220). -/
def execLdI (nnn : BitVec 12) (s : State) : Result := complete (s.setI (addressOf nnn))

/-- Fx1E: I <- I + V[x], OutOfBoundsError(index_add, t) when the sum t exceeds 0xFFF (R221). -/
def execAddI (x : Reg) (s : State) : Result :=
  let t := s.I.toNat + (s.getV x).toNat
  if t > 0xFFF then raise (.outOfBounds (.indexAdd t)) s else complete (s.setI (BitVec.ofNat 16 t))

/-- Fx29: I <- FONT_BASE + (V[x] & 0xF) * 5 (R222). -/
def execLdFont (x : Reg) (s : State) : Result := complete (s.setI (glyphAddress s.cfg (s.getV x)))

/-- A store of bytes from I on: CheckRange, then CheckFontWrite, then the stores (R223, R224, R226, R227). -/
def storeAtI (bytes : List Byte) (s : State) : Result :=
  attempt (checkRange s.I.toNat bytes.length) s fun _ =>
    attempt (checkFontWrite s.cfg s.I.toNat bytes.length) s fun _ =>
      complete (s.writeBytes s.I.toNat bytes)

/-- Fx33: the BCD digits of V[x] to I, I+1, I+2 (R223). -/
def execLdBcd (x : Reg) (s : State) : Result := storeAtI (bcdDigits (s.getV x)) s

/-- Fx55: V[0]..V[x] to I..I+x; I is unchanged (R224). -/
def execStoreRegs (x : Reg) (s : State) : Result := storeAtI (s.valuesUpTo x) s

/-- V[i] <- MemRead(I + i, 1) for each register listed (R225). -/
def loadInto : List Reg → State → State
  | [], s => s
  | r :: rs, s => loadInto rs (s.setV r (s.readByte (s.indexed r.val)))

/-- Fx65: V[0]..V[x] from I..I+x; I is unchanged (R225). -/
def execLoadRegs (x : Reg) (s : State) : Result :=
  attempt (checkRange s.I.toNat (x.val + 1)) s fun _ => complete (loadInto (regsUpTo x) s)

end Sys2Proof.Machine
end

