-- ==== Sys2Proof/Machine/KeysTimers.lean ====
section
/-! DEFINITION. Key and timer instructions (45_keys_timers.md R280 to R287). Every key test reads the vector of the
current step (R287). -/

namespace Sys2Proof.Machine

/-- Ex9E: skip if K[V[x]] (R280). -/
def execSkp (x : Reg) (s : State) : Result :=
  attempt (checkKeyIndex (s.getV x)) s fun k => skipIf s.keys[k] s

/-- ExA1: skip if not K[V[x]] (R281). -/
def execSknp (x : Reg) (s : State) : Result :=
  attempt (checkKeyIndex (s.getV x)) s fun k => skipIf (!s.keys[k]) s

/-- Fx07: V[x] <- DT (R282). -/
def execLdFromDT (x : Reg) (s : State) : Result := complete (s.setV x s.DT)

/-- Fx0A: the lowest pressed key into V[x], or W <- wait(x) and status AwaitingKey (R283; D16). -/
def execLdKey (x : Reg) (s : State) : Result :=
  match lowestKey s.keys with
  | some k => complete (s.setV x (keyCode k))
  | none => finish .awaitingKey false (s.setW (some x))

/-- Fx15: DT <- V[x] (R284). -/
def execLdToDT (x : Reg) (s : State) : Result := complete (s.setDT (s.getV x))

/-- Fx18: ST <- V[x] (R285). -/
def execLdToST (x : Reg) (s : State) : Result := complete (s.setST (s.getV x))

end Sys2Proof.Machine
end

