-- ==== Sys2Proof/Machine/Engine.lean ====
section
/-! DEFINITION. The three transactions (40_engine.md R120 to R132): the step engine, `load` (70_reset_and_hazards.md
R351 to R353) and `tick_timers` (60_exceptions.md R320), and the order in which the host's transactions are served. -/

namespace Sys2Proof.Machine

/-- ENFORCE_PROGRAM_FLOOR's bound and the load address PROG_BASE (R6, R72). -/
def progBase : Nat := 0x200

/-- The checks of a fetch, in order, before any effect: the bound, then the program floor (R125, R312). -/
def checkFetch (s : State) : Except Fault Unit :=
  if s.PC.toNat + 1 > 0xFFF then .error (.outOfBounds (.fetch s.PC))
  else if s.cfg.enforceProgramFloor = true ∧ s.PC.toNat < progBase then
    .error (.specFault (.fetchBelowProgramSpace s.PC))
  else .ok ()

/-- The word at PC, high byte first (R63, R126). -/
def State.fetchedWord (s : State) : Word := wordOfBytes (s.readByte s.PC.toNat) (s.readByte (s.PC.toNat + 1))

/-- Decode and execute a fetched word on the state the fetch left (R126, R127). -/
def runWord (w : Word) (s : State) : Result :=
  match decodeWord w with
  | some i => exec i s
  | none => raise (.unknownOpcode w) s

/-- Fetch, advance PC, decode, execute (R122, R125, R126). -/
def runNext (s : State) : Result := attempt (checkFetch s) s fun _ => runWord s.fetchedWord s.advance

/-- A step while W = wait(x): the lowest pressed key ends the wait, no key leaves it; nothing is fetched (R124). -/
def resumeWait (x : Reg) (s : State) : Result :=
  match lowestKey s.keys with
  | some k => complete ((s.setV x (keyCode k)).setW none)
  | none => finish .awaitingKey false s

/-- The inputs of a step (R17, R35, R121). -/
def State.supply (K : Keys) (r : Byte) (s : State) : State := { s with keys := K, rand := r }

/-- The step engine on the state that holds its inputs: refused before a load, else the wait, else the next
instruction (R122, R123, R124). -/
def stepSupplied (s : State) : Result :=
  if s.loaded then
    match s.W with
    | some x => resumeWait x s
    | none => runNext s
  else raise .notLoaded s

/-- `step(s, K, r)` (R121, R122). -/
def stepWith (K : Keys) (r : Byte) (s : State) : Result := stepSupplied (s.supply K r)

/-- `load(rom)` (R351, R352, R353): CapacityError with nothing changed, or the full reset. The stack slots are not
written and the key vector is not touched (R351). -/
def load (rom : List Byte) (s : State) : State :=
  if romFits rom then
    { s with
      M := Memory.ofBytes (fontByte s.cfg) progBase rom
      memDraw := s.memDraw + 1
      V := Vector.replicate 16 0
      I := 0
      PC := 0x200
      SP := 0
      DT := 0
      ST := 0
      D := Display.blank
      W := none
      loaded := true
      status := .ok }
  else { s with status := .fault (.capacity rom.length) }

/-- A counter moved toward zero, never below it (R33, R320). -/
def countDown (b : Byte) : Byte := if b = 0 then 0 else b - 1

/-- `tick_timers()` (R320): valid in every state, no status, no other effect. -/
def tickTimers (s : State) : State := (s.setDT (countDown s.DT)).setST (countDown s.ST)

/-- The host's transaction at the head of `pending`, or, when the host has lined up none, a step with the key vector
it last supplied and a random byte no one knows (R120, R191; log entries 2 and 5). -/
def serve (s : State) : Result :=
  match s.pending with
  | [] => stepWith s.keys (Config.randomByte s.randDraw) { s with randDraw := s.randDraw + 1 }
  | .step K r :: rest => stepWith K r { s with pending := rest }
  | .load rom :: rest => .next (load rom { s with pending := rest })
  | .tickTimers :: rest => .next (tickTimers { s with pending := rest })

/-- Is the host's next transaction a step? -/
def nextIsStep : List Transaction → Bool
  | [] => true
  | .step _ _ :: _ => true
  | _ => false

/-- A state whose next step fetches: loaded, not waiting, PC fetchable, the host's next transaction a step; what
already holds is left as it is. -/
def readyToFetch (s : State) : State :=
  let s := if s.loaded then s else load [] s
  let s := s.setW none
  let s := match checkFetch s with
    | .ok _ => s
    | .error _ => s.setPC 0x200
  if nextIsStep s.pending then s else { s with pending := .step s.keys s.rand :: s.pending }

/-- The word stored at PC, high byte first (R63): what a load of it from outside the machine would leave there. -/
def placeWord (w : Word) (s : State) : State := s.writeBytes s.PC.toNat [(bytesOfWord w).1, (bytesOfWord w).2]

end Sys2Proof.Machine
end

