-- ==== Sys2Proof/Machine/Step.lean ====
section
/-! DEFINITION. One step of the machine, and a word stored where it fetches. -/

namespace Sys2Proof.Machine

/-- One step: the host's next transaction (R120, R122). It answers `next` in every state. -/
def step (s : State) : Host.Outcome State Fault Refusal := serve s

/-- `s` with the instruction of the table word `w` where the very next step fetches. -/
def State.withFetchWord (s : State) (nbits w : Nat) : State :=
  placeWord (BitVec.ofNat 16 (w % 2 ^ nbits)) (readyToFetch s)

end Sys2Proof.Machine
end

