-- ==== Sys2Proof/Safety.lean ====
section
/-! DEFINITION. What the claims speak of: what the host sees, when a step fetches, which registers a rule names as
written, which pixels a sprite covers, and the invariant of every loaded machine. -/

namespace Sys2Proof.Machine

/-- The outputs the core exposes to the host (10_state.md R36). -/
structure Observation where
  display : Display
  status : Status
  redraw : Bool
  awaitingKey : Bool
  sound : Byte
  deriving DecidableEq, Repr

/-- What the host reads between transactions: D, the outputs of the last step, whether W ≠ none, and ST (R36). -/
def State.observe (s : State) : Observation where
  display := s.D
  status := s.status
  redraw := s.redraw
  awaitingKey := s.W.isSome
  sound := s.ST

/-- A Machine just constructed: not loaded, not waiting, everything else any value (70_reset_and_hazards.md R350). -/
abbrev State.Constructed (s : State) : Prop := s.loaded = false ∧ s.W = none

/-- The host's next transaction is a step, and `s1` is `s` with that step's inputs supplied: the ones the host lined
up, or, when it lined up none, the key vector it last supplied and the next random draw (R121; log entries 2, 5). -/
def State.Accepts (s s1 : State) : Prop :=
  (∃ K r rest, s.pending = .step K r :: rest ∧ s1 = { s with pending := rest, keys := K, rand := r }) ∨
  (s.pending = [] ∧ s1 = { s with randDraw := s.randDraw + 1, rand := Config.randomByte s.randDraw })

/-- A step on this state fetches: loaded, not waiting, both fetch checks pass (R122 to R125). -/
structure State.Fetches (s : State) : Prop where
  loaded : s.loaded = true
  running : s.W = none
  bound : s.PC.toNat + 1 ≤ 0xFFF
  floor : s.cfg.enforceProgramFloor = true → 0x200 ≤ s.PC.toNat

/-- The word a fetch reads: M[PC] * 256 + M[PC + 1] (R63, R126). -/
def State.wordAtPC (s : State) : Word :=
  BitVec.ofNat 16 ((s.readByte s.PC.toNat).toNat * 256 + (s.readByte (s.PC.toNat + 1)).toNat)

/-- A step that reports no fault (R129). -/
def Safe (r : Result) : Prop := ∃ t, r = .next t ∧ ∀ e, t.status ≠ .fault e

/-- The V registers the rules name as written by an instruction: its destination (R21) and VF where it is written as
a flag (R24). -/
def SpecWritesV : Instr → Reg → Prop
  | .ldImm x _, r | .addImm x _, r | .ldReg x _, r | .orReg x _, r | .andReg x _, r | .xorReg x _, r => r = x
  | .rnd x _, r | .ldFromDT x, r | .ldKey x, r => r = x
  | .addReg x _, r | .subReg x _, r | .shr x _, r | .subnReg x _, r | .shl x _, r => r = x ∨ r = 0xF
  | .drw _ _ _, r => r = 0xF
  | .loadRegs x, r => r ≤ x
  | _, _ => False

/-- The instructions that may change PC in their own rule (41_flow.md; R280, R281). -/
def SpecWritesPC : Instr → Prop
  | .ret | .jp _ | .call _ | .jpV0 _ | .seImm _ _ | .sneImm _ _ | .seReg _ _ | .sneReg _ _ | .skp _ | .sknp _ => True
  | _ => False

/-- Some row of the n-row sprite at I, inside memory, has a set bit on pixel (px, py), coordinates wrapping on both
axes from the origin (V[x] mod 64, V[y] mod 32) (R251, R252, R253). -/
def SpriteCovers (s : State) (x y : Reg) (n : Nat) (px : Fin 64) (py : Fin 32) : Prop :=
  ∃ row col : Nat, row < n ∧ col < 8 ∧ s.I.toNat + row ≤ 0xFFF ∧
    (s.readByte (s.I.toNat + row)).getLsbD (7 - col) = true ∧
    (s.V[x].toNat % 64 + col) % 64 = px.val ∧ (s.V[y].toNat % 32 + row) % 32 = py.val

/-- The invariant: memory is canonical (R60), and on a loaded machine I is a memory address (R27), PC is at most
0x10FE (R29) and a return address in use is at most 0x1000 (R152, D24). -/
structure State.Inv (s : State) : Prop where
  memory : Memory.wf s.image s.M
  index : s.loaded = true → s.I.toNat ≤ 0xFFF
  counter : s.loaded = true → s.PC.toNat ≤ 0x10FE
  returns : s.loaded = true → ∀ k : Fin 16, k.val < s.SP.val → s.S[k].toNat ≤ 0x1000

end Sys2Proof.Machine
end

