-- ==== Sys2Proof/Certificates/Slice0/Obligations.lean ====
section
/-! DEFINITION. The statements for the provers, each from a numbered rule of spec/ or from several. -/

open Sys2Proof Sys2Proof.Machine

/-! ### Encoding -/

/-- Decode and encode agree on every instruction, as a word and as bytes in memory (R91, R92, R94 to R96, R100). -/
def Obligations.DecodeOfEncodeIsTheInstruction : Prop :=
  ∀ (i : Instr) (rest : List Byte),
    decodeWord (encode i) = some i ∧ decodeBytes (encodeBytes i ++ rest) = .ok (i, rest)

/-- A word that decodes is the word of the instruction it decodes to: no bit of it is dropped (R92, R94). -/
def Obligations.EncodeOfDecodeIsTheWord : Prop :=
  ∀ (w : Word) (i : Instr), decodeWord w = some i → encode i = w

/-- The decoder accepts exactly the words that match a pattern of the opcode map (R94, R97). -/
def Obligations.DecoderAcceptsExactlyTheLegalWords : Prop :=
  ∀ w : Word, legalWord w = true ↔ ∃ i, decodeWord w = some i

/-- No word matches two patterns of the opcode map (R97). -/
def Obligations.NoWordMatchesTwoPatterns : Prop :=
  ∀ (w : Word) (p q : Pattern), p ∈ opcodeRows → q ∈ opcodeRows → p.selects w = true → q.selects w = true → p = q

/-- Words written out from the patterns decode to the instruction they stand for; the first three are R100's. -/
def Obligations.WordsWrittenOutDecode : Prop :=
  decodeWord 0x83A4 = some (.addReg 3 0xA) ∧ decodeWord 0xD015 = some (.drw 0 1 5) ∧
  decodeWord 0xF233 = some (.ldBcd 2) ∧ decodeWord 0x00E0 = some .cls ∧ decodeWord 0x1234 = some (.jp 0x234) ∧
  decodeWord 0x3F10 = some (.seImm 0xF 0x10) ∧ decodeWord 0xC30F = some (.rnd 3 0x0F) ∧
  decodeWord 0xE5A1 = some (.sknp 5) ∧ decodeWord 0x5121 = none ∧ decodeWord 0x01E0 = none

/-! ### The step engine -/

/-- When the host's next transaction is a step, the machine fetches, and the word at PC decodes to an instruction, the
step is exec of that instruction on the state with the step's inputs and PC + 2 (R122, R126). -/
def Obligations.StepRunsTheDecodedInstruction : Prop :=
  ∀ (s s1 : State) (i : Instr), s.Accepts s1 → s.Fetches → decodeWord s.wordAtPC = some i →
    step s = exec i { s1 with PC := s.PC + 2 }

/-- A fetched word that matches no pattern ends the step with UnknownOpcodeError(w), and only the advance of PC is
kept (R97, R126, R127). -/
def Obligations.UnknownWordKeepsOnlyTheAdvance : Prop :=
  ∀ (s s1 : State), s.Accepts s1 → s.Fetches → legalWord s.wordAtPC = false →
    step s = .next { s1 with PC := s.PC + 2, status := .fault (.unknownOpcode s.wordAtPC), redraw := false }

/-- The checks of a fetch, in their order, before any effect; a fetch that passes both runs the word at PC on the
state with PC advanced (R125). -/
def Obligations.FetchChecksInOrderBeforeAnyEffect : Prop :=
  ∀ (s s1 : State), s.Accepts s1 → s.loaded = true → s.W = none →
    (s.PC.toNat + 1 > 0xFFF →
      step s = .next { s1 with status := .fault (.outOfBounds (.fetch s.PC)), redraw := false }) ∧
    (s.PC.toNat + 1 ≤ 0xFFF → s.cfg.enforceProgramFloor = true → s.PC.toNat < 0x200 →
      step s = .next { s1 with status := .fault (.specFault (.fetchBelowProgramSpace s.PC)), redraw := false }) ∧
    (s.PC.toNat + 1 ≤ 0xFFF → (s.cfg.enforceProgramFloor = true → 0x200 ≤ s.PC.toNat) →
      step s = runWord s.wordAtPC { s1 with PC := s.PC + 2 })

/-- A step before any load changes nothing and returns NotLoadedError (R123). -/
def Obligations.StepBeforeLoadIsRefused : Prop :=
  ∀ (s s1 : State), s.Accepts s1 → s.loaded = false →
    step s = .next { s1 with status := .fault .notLoaded, redraw := false }

/-- While W = wait(x) a step fetches nothing: the lowest pressed key goes to V[x] and ends the wait, PC unchanged;
with no key pressed nothing changes and the status is AwaitingKey (R124). -/
def Obligations.WaitingStepTakesTheLowestKey : Prop :=
  ∀ (s s1 : State) (x : Reg), s.Accepts s1 → s.loaded = true → s.W = some x →
    (∀ k : Fin 16, s1.keys[k] = true → (∀ j : Fin 16, j < k → s1.keys[j] = false) →
      step s = .next { s1 with V := s1.V.set x (BitVec.ofNat 8 k.val), W := none, status := .ok, redraw := false }) ∧
    ((∀ k : Fin 16, s1.keys[k] = false) → step s = .next { s1 with status := .awaitingKey, redraw := false })

/-- Every instruction answers a next state in every state, and so does every step: an error is a status and never
stops the machine (R131, R132). -/
def Obligations.EveryStepAnswersANextState : Prop :=
  (∀ (i : Instr) (s : State), ∃ t, exec i s = .next t) ∧ ∀ s : State, ∃ t, step s = .next t

/-- The commit rule (R127). A fault of an instruction leaves the state it ran in, but for the outputs; a step that
reports a fault leaves everything unchanged if the fault came before the fetch completed, and only PC advanced by 2
otherwise; Dxyn never faults, it commits what it did. -/
def Obligations.FaultKeepsOnlyTheFetch : Prop :=
  (∀ (i : Instr) (s t : State) (e : Fault), exec i s = .next t → t.status = .fault e →
    t = { s with status := .fault e, redraw := false }) ∧
  (∀ (s s1 t : State) (e : Fault), s.Accepts s1 → step s = .next t → t.status = .fault e →
    match e with
    | .notLoaded | .outOfBounds (.fetch _) | .specFault (.fetchBelowProgramSpace _) =>
      t = { s1 with status := .fault e, redraw := false }
    | _ => t = { s1 with PC := s.PC + 2, status := .fault e, redraw := false }) ∧
  (∀ (x y : Reg) (n : Fin 16) (s t : State) (e : Fault), exec (.drw x y n) s = .next t → t.status ≠ .fault e)

/-- redraw is true exactly when the step executed 00E0 or Dxyn to completion (R130). -/
def Obligations.RedrawExactlyAfterClearOrDraw : Prop :=
  ∀ (s s1 t : State), s.Accepts s1 → step s = .next t →
    (t.redraw = true ↔ s.Fetches ∧
      (decodeWord s.wordAtPC = some .cls ∨ ∃ x y n, decodeWord s.wordAtPC = some (.drw x y n)))

/-- On a loaded machine a step's status is AwaitingKey exactly when W ≠ none after it (R129). -/
def Obligations.AwaitingKeyExactlyWhileWaiting : Prop :=
  ∀ (s s1 t : State), s.Accepts s1 → s.loaded = true → step s = .next t → (t.status = .awaitingKey ↔ t.W ≠ none)

/-! ### Frames: what an instruction leaves unchanged -/

/-- A V register that the rules do not name as written by an instruction keeps its value (R21, R24). -/
def Obligations.RegistersChangeOnlyWhereNamed : Prop :=
  ∀ (i : Instr) (s t : State) (r : Reg), exec i s = .next t → ¬ SpecWritesV i r → t.V[r] = s.V[r]

/-- I is written by Annn, Fx1E and Fx29 alone; Fx55 and Fx65 leave it unchanged (R26). -/
def Obligations.IndexChangesOnlyByItsWriters : Prop :=
  ∀ (i : Instr) (s t : State), exec i s = .next t → t.I ≠ s.I →
    (∃ nnn, i = .ldI nnn) ∨ (∃ x, i = .addI x) ∨ ∃ x, i = .ldFont x

/-- The stack and its pointer change by 2nnn and 00EE alone, and a pop leaves the slots as they are (R31, R150). -/
def Obligations.StackChangesOnlyByCallAndReturn : Prop :=
  ∀ (i : Instr) (s t : State), exec i s = .next t →
    (t.S ≠ s.S → ∃ nnn, i = .call nnn) ∧ (t.SP ≠ s.SP → i = .ret ∨ ∃ nnn, i = .call nnn)

/-- PC keeps the value the fetch gave it but for the control transfers and skips (41_flow.md, 42_alu.md,
43_index_memory.md, 44_display.md, 45_keys_timers.md). -/
def Obligations.CounterChangesOnlyByFlow : Prop :=
  ∀ (i : Instr) (s t : State), exec i s = .next t → ¬ SpecWritesPC i → t.PC = s.PC

/-- No step decrements a timer: DT changes in a step only by Fx15, ST only by Fx18 (R33, R120). -/
def Obligations.StepsChangeTimersOnlyByTheirInstructions : Prop :=
  ∀ (s s1 t : State), s.Accepts s1 → step s = .next t →
    (t.DT ≠ s.DT → s.Fetches ∧ ∃ x, decodeWord s.wordAtPC = some (.ldToDT x)) ∧
    (t.ST ≠ s.ST → s.Fetches ∧ ∃ x, decodeWord s.wordAtPC = some (.ldToST x))

/-- The display changes by a load and by a step that fetches 00E0 or Dxyn, and by no other transaction (R34). -/
def Obligations.DisplayChangesOnlyByClearDrawAndLoad : Prop :=
  ∀ s t : State, step s = .next t → t.D ≠ s.D →
    (∃ rom rest, s.pending = .load rom :: rest) ∨
    ((∃ s1, s.Accepts s1) ∧ s.Fetches ∧
      (decodeWord s.wordAtPC = some .cls ∨ ∃ x y n, decodeWord s.wordAtPC = some (.drw x y n)))

/-- Every instruction but Fx33 and Fx55 stores nothing: every address reads as before (R62). -/
def Obligations.MemoryChangesOnlyByStores : Prop :=
  ∀ (i : Instr) (s t : State), exec i s = .next t → (∀ x, i ≠ .ldBcd x) → (∀ x, i ≠ .storeRegs x) →
    ∀ a, t.readByte a = s.readByte a

/-- No instruction changes the load flag, the parameters, the inputs or the model's own fields (the draws and the
host's queue, log entries 1, 2 and 5); W changes by Fx0A alone (R35, R37). -/
def Obligations.InstructionsLeaveInputsAndStatusElements : Prop :=
  ∀ (i : Instr) (s t : State), exec i s = .next t →
    t.cfg = s.cfg ∧ t.loaded = s.loaded ∧ t.memDraw = s.memDraw ∧ t.keys = s.keys ∧ t.rand = s.rand ∧
    t.randDraw = s.randDraw ∧ t.pending = s.pending ∧ (t.W ≠ s.W → ∃ x, i = .ldKey x)

/-! ### Control transfer and skips -/

/-- 1nnn: PC = nnn. Bnnn: PC = nnn + V0, neither wrapped nor masked to 12 bits (R151, R157). -/
def Obligations.JumpsReachTheirTargets : Prop :=
  ∀ (nnn : BitVec 12) (s : State),
    (∃ p : Word, exec (.jp nnn) s = .next { s with PC := p, status := .ok, redraw := false } ∧
      p.toNat = nnn.toNat) ∧
    (∃ p : Word, exec (.jpV0 nnn) s = .next { s with PC := p, status := .ok, redraw := false } ∧
      p.toNat = nnn.toNat + s.V[0].toNat)

/-- 2nnn: the address after the call is pushed and PC = nnn; a full stack is a StackOverflowError(16) with the stack
unchanged (R152). -/
def Obligations.CallPushesTheReturnAddress : Prop :=
  ∀ (nnn : BitVec 12) (s : State),
    (∀ h : s.SP.val < 16, exec (.call nnn) s =
      .next { s with S := s.S.set s.SP.val s.PC h, SP := ⟨s.SP.val + 1, by omega⟩, PC := BitVec.ofNat 16 nnn.toNat,
                     status := .ok, redraw := false }) ∧
    (s.SP.val = 16 → exec (.call nnn) s = .next { s with status := .fault (.stackOverflow 16), redraw := false })

/-- 00EE: SP goes down by one and PC is the slot there, used unchecked; an empty stack is a StackUnderflowError(0)
(R150). -/
def Obligations.ReturnPopsTheReturnAddress : Prop :=
  ∀ s : State,
    (∀ h : 0 < s.SP.val, exec .ret s =
      .next { s with SP := ⟨s.SP.val - 1, by omega⟩, PC := s.S[s.SP.val - 1]'(by omega),
                     status := .ok, redraw := false }) ∧
    (s.SP.val = 0 → exec .ret s = .next { s with status := .fault (.stackUnderflow 0), redraw := false })

/-- 3xkk, 4xkk, 5xy0, 9xy0: PC + 2 when the condition holds, PC as the fetch left it when not; nothing else changes
(R153 to R156). -/
def Obligations.RegisterSkipsAddTwoWhenTheirConditionHolds : Prop :=
  ∀ (x y : Reg) (kk : Byte) (s : State),
    exec (.seImm x kk) s = .next { s with PC := if s.V[x] = kk then s.PC + 2 else s.PC, status := .ok, redraw := false } ∧
    exec (.sneImm x kk) s = .next { s with PC := if s.V[x] = kk then s.PC else s.PC + 2, status := .ok, redraw := false } ∧
    exec (.seReg x y) s = .next { s with PC := if s.V[x] = s.V[y] then s.PC + 2 else s.PC, status := .ok, redraw := false } ∧
    exec (.sneReg x y) s = .next { s with PC := if s.V[x] = s.V[y] then s.PC else s.PC + 2, status := .ok, redraw := false }

/-- A call followed by a return to the same stack restores PC to the address after the call and SP (R150, R152). -/
def Obligations.ReturnUndoesCall : Prop :=
  ∀ (nnn : BitVec 12) (s t u : State), s.SP.val < 16 → exec (.call nnn) s = .next t → u.S = t.S → u.SP = t.SP →
    ∃ v, exec .ret u = .next v ∧ v.PC = s.PC ∧ v.SP = s.SP ∧ ∀ k : Fin 16, k.val < s.SP.val → v.S[k] = s.S[k]

/-! ### Register loads and arithmetic -/

/-- 6xkk, 7xkk, 8xy0: the value goes to V[x], the sum mod 256, with no flag written (R180, R181, R182). -/
def Obligations.LoadsAndImmediateAddWriteVxAlone : Prop :=
  ∀ (x y : Reg) (kk : Byte) (s : State),
    exec (.ldImm x kk) s = .next { s with V := s.V.set x kk, status := .ok, redraw := false } ∧
    exec (.addImm x kk) s =
      .next { s with V := s.V.set x (BitVec.ofNat 8 ((s.V[x].toNat + kk.toNat) % 256)), status := .ok, redraw := false } ∧
    exec (.ldReg x y) s = .next { s with V := s.V.set x s.V[y], status := .ok, redraw := false }

/-- 8xy1, 8xy2, 8xy3: bit by bit the or, and, exclusive or of V[x] and V[y], with no flag written
(R183, R184, R185). -/
def Obligations.LogicInstructionsWorkBitByBit : Prop :=
  ∀ (x y : Reg) (s : State), ∃ o a e : Byte,
    exec (.orReg x y) s = .next { s with V := s.V.set x o, status := .ok, redraw := false } ∧
    exec (.andReg x y) s = .next { s with V := s.V.set x a, status := .ok, redraw := false } ∧
    exec (.xorReg x y) s = .next { s with V := s.V.set x e, status := .ok, redraw := false } ∧
    ∀ b : Fin 8, (o[b] = (s.V[x][b] || s.V[y][b])) ∧ (a[b] = (s.V[x][b] && s.V[y][b])) ∧
      (e[b] = (s.V[x][b] != s.V[y][b]))

/-- 8xy4: VF is the carry out of bit 7, then V[x] is the sum mod 256, the sum taken before VF is written; in fault mode
for words that do not name VF (R186). -/
def Obligations.AddSetsCarryThenSum : Prop :=
  ∀ (x y : Reg) (s : State), s.cfg.vfAliasMode = .sequential ∨ (x ≠ 0xF ∧ y ≠ 0xF) →
    exec (.addReg x y) s = .next
      { s with V := (s.V.set 15 (if s.V[x].toNat + s.V[y].toNat > 255 then 1 else 0)).set x
                      (BitVec.ofNat 8 ((s.V[x].toNat + s.V[y].toNat) % 256))
               status := .ok, redraw := false }

/-- 8xy5 and 8xy7: VF is 1 on strictly greater, then V[x] is the difference mod 256 of the registers as the flag write
left them; in fault mode for words that do not name VF (R187, R189). -/
def Obligations.SubtractionsSetStrictFlagThenDifference : Prop :=
  ∀ (x y : Reg) (s : State), s.cfg.vfAliasMode = .sequential ∨ (x ≠ 0xF ∧ y ≠ 0xF) →
    (∃ w : Vector Byte 16, w = s.V.set 15 (if s.V[x].toNat > s.V[y].toNat then 1 else 0) ∧
      exec (.subReg x y) s = .next
        { s with V := w.set x (BitVec.ofNat 8 ((256 + w[x].toNat - w[y].toNat) % 256)), status := .ok, redraw := false }) ∧
    (∃ w : Vector Byte 16, w = s.V.set 15 (if s.V[y].toNat > s.V[x].toNat then 1 else 0) ∧
      exec (.subnReg x y) s = .next
        { s with V := w.set x (BitVec.ofNat 8 ((256 + w[y].toNat - w[x].toNat) % 256)), status := .ok, redraw := false })

/-- 8xy6 and 8xyE: VF is the bit shifted out, then V[x] as the flag write left it is shifted by one in place, whatever
V[y] is; in fault mode for x ≠ 0xF (R188, R190). -/
def Obligations.ShiftsMoveOneBitIntoVF : Prop :=
  ∀ (x y : Reg) (s : State), s.cfg.vfAliasMode = .sequential ∨ x ≠ 0xF →
    (∃ w : Vector Byte 16, w = s.V.set 15 (BitVec.ofNat 8 (s.V[x].toNat % 2)) ∧
      exec (.shr x y) s = .next
        { s with V := w.set x (BitVec.ofNat 8 (w[x].toNat / 2)), status := .ok, redraw := false }) ∧
    (∃ w : Vector Byte 16, w = s.V.set 15 (BitVec.ofNat 8 (s.V[x].toNat / 128)) ∧
      exec (.shl x y) s = .next
        { s with V := w.set x (BitVec.ofNat 8 (2 * w[x].toNat % 256)), status := .ok, redraw := false })

/-- The table of VF as an operand, sequential mode, row by row: each aliased word completes, with VF and V[x] as the
statements in order give them (R194). -/
def Obligations.VfOperandTableInSequentialMode : Prop :=
  ∀ (x y : Reg) (s : State), s.cfg.vfAliasMode = .sequential → x ≠ 0xF → y ≠ 0xF →
    (∃ t, exec (.addReg 0xF y) s = .next t ∧ t.V[15].toNat = (s.V[15].toNat + s.V[y].toNat) % 256) ∧
    (∃ t, exec (.addReg x 0xF) s = .next t ∧ t.V[x].toNat = (s.V[x].toNat + s.V[15].toNat) % 256 ∧
      t.V[15].toNat = if s.V[x].toNat + s.V[15].toNat > 255 then 1 else 0) ∧
    (∃ t, exec (.addReg 0xF 0xF) s = .next t ∧ t.V[15].toNat = 2 * s.V[15].toNat % 256) ∧
    (∃ t, exec (.subReg 0xF y) s = .next t ∧
      t.V[15].toNat = (256 + (if s.V[15].toNat > s.V[y].toNat then 1 else 0) - s.V[y].toNat) % 256) ∧
    (∃ t, exec (.subReg x 0xF) s = .next t ∧
      t.V[x].toNat = (256 + s.V[x].toNat - (if s.V[x].toNat > s.V[15].toNat then 1 else 0)) % 256 ∧
      t.V[15].toNat = if s.V[x].toNat > s.V[15].toNat then 1 else 0) ∧
    (∃ t, exec (.subReg 0xF 0xF) s = .next t ∧ t.V[15].toNat = 0) ∧
    (∀ z : Reg, ∃ t, exec (.shr 0xF z) s = .next t ∧ t.V[15].toNat = 0) ∧
    (∃ t, exec (.subnReg 0xF y) s = .next t ∧
      t.V[15].toNat = (256 + s.V[y].toNat - (if s.V[y].toNat > s.V[15].toNat then 1 else 0)) % 256) ∧
    (∃ t, exec (.subnReg x 0xF) s = .next t ∧
      t.V[x].toNat = (256 + (if s.V[15].toNat > s.V[x].toNat then 1 else 0) - s.V[x].toNat) % 256 ∧
      t.V[15].toNat = if s.V[15].toNat > s.V[x].toNat then 1 else 0) ∧
    (∃ t, exec (.subnReg 0xF 0xF) s = .next t ∧ t.V[15].toNat = 0) ∧
    (∀ z : Reg, ∃ t, exec (.shl 0xF z) s = .next t ∧ t.V[15].toNat = 2 * (s.V[15].toNat / 128))

/-- Under VF_ALIAS_MODE = fault each word of the alias table raises SpecFault(vf_alias, w) and does nothing else
(R194). -/
def Obligations.VfOperandIsAFaultInFaultMode : Prop :=
  ∀ (x y : Reg) (s : State), s.cfg.vfAliasMode = .fault →
    (x = 0xF ∨ y = 0xF →
      exec (.addReg x y) s =
        .next { s with status := .fault (.specFault (.vfAlias (encode (.addReg x y)))), redraw := false } ∧
      exec (.subReg x y) s =
        .next { s with status := .fault (.specFault (.vfAlias (encode (.subReg x y)))), redraw := false } ∧
      exec (.subnReg x y) s =
        .next { s with status := .fault (.specFault (.vfAlias (encode (.subnReg x y)))), redraw := false }) ∧
    (x = 0xF →
      exec (.shr x y) s =
        .next { s with status := .fault (.specFault (.vfAlias (encode (.shr x y)))), redraw := false } ∧
      exec (.shl x y) s =
        .next { s with status := .fault (.specFault (.vfAlias (encode (.shl x y)))), redraw := false })

/-- Cxkk: bit by bit the step's random byte masked by kk goes to V[x], for every random byte (R191). -/
def Obligations.RandomByteIsMasked : Prop :=
  ∀ (x : Reg) (kk : Byte) (s : State), ∃ v : Byte,
    exec (.rnd x kk) s = .next { s with V := s.V.set x v, status := .ok, redraw := false } ∧
    ∀ b : Fin 8, v[b] = (s.rand[b] && kk[b])

/-- 6xkk followed by 7xkk completes and leaves (kk1 + kk2) mod 256 in V[x] (R192). -/
def Obligations.LoadThenAddImmediateWraps : Prop :=
  ∀ (x : Reg) (k1 k2 : Byte) (s : State), ∃ t u, exec (.ldImm x k1) s = .next t ∧ exec (.addImm x k2) t = .next u ∧
    u.V[x].toNat = (k1.toNat + k2.toNat) % 256

/-- Every instruction but Cxkk ignores the random byte: with another one it does the same (R121). -/
def Obligations.RandomByteIsReadByRndAlone : Prop :=
  ∀ (i : Instr) (s t : State) (r : Byte), (∀ x kk, i ≠ .rnd x kk) → exec i s = .next t →
    exec i { s with rand := r } = .next { t with rand := r }

/-- Every instruction but Ex9E, ExA1 and Fx0A ignores the key vector: with another one it does the same (R324). -/
def Obligations.KeysAreReadByKeyInstructionsAlone : Prop :=
  ∀ (i : Instr) (s t : State) (K : Keys), (∀ x, i ≠ .skp x ∧ i ≠ .sknp x ∧ i ≠ .ldKey x) → exec i s = .next t →
    exec i { s with keys := K } = .next { t with keys := K }

/-! ### Index register and memory -/

/-- Annn: I = nnn. Fx29: I = FONT_BASE + (V[x] & 0xF) * 5, the low nibble alone selecting the glyph (R220, R222). -/
def Obligations.IndexLoads : Prop :=
  ∀ (nnn : BitVec 12) (x : Reg) (s : State),
    (∃ a : Word, exec (.ldI nnn) s = .next { s with I := a, status := .ok, redraw := false } ∧ a.toNat = nnn.toNat) ∧
    (∃ a : Word, exec (.ldFont x) s = .next { s with I := a, status := .ok, redraw := false } ∧
      a.toNat = s.cfg.fontBase.val + s.V[x].toNat % 16 * 5)

/-- Fx1E: I = I + V[x] when the exact sum is at most 0xFFF, else OutOfBoundsError(index_add, sum) with I unchanged; VF
is never written (R221). -/
def Obligations.AddToIndexIsChecked : Prop :=
  ∀ (x : Reg) (s : State),
    (s.I.toNat + s.V[x].toNat ≤ 0xFFF →
      ∃ a : Word, exec (.addI x) s = .next { s with I := a, status := .ok, redraw := false } ∧
        a.toNat = s.I.toNat + s.V[x].toNat) ∧
    (s.I.toNat + s.V[x].toNat > 0xFFF →
      exec (.addI x) s = .next
        { s with status := .fault (.outOfBounds (.indexAdd (s.I.toNat + s.V[x].toNat))), redraw := false })

/-- Fx33. In range and clear of a protected font it stores the hundreds, tens and ones of V[x] at I, I+1, I+2; every
other address reads as before and nothing but memory changes. Past 0xFFF it is an OutOfBoundsError(mem_range), in range
and meeting a protected font a SpecFault(font_write), and nothing is written (R223). -/
def Obligations.BcdStoresThreeDigits : Prop :=
  ∀ (x : Reg) (s : State),
    (s.I.toNat + 2 ≤ 0xFFF →
      (s.cfg.enforceFontReadonly = true →
        s.I.toNat > s.cfg.fontBase.val + 79 ∨ s.I.toNat + 2 < s.cfg.fontBase.val) →
      ∃ t, exec (.ldBcd x) s = .next t ∧ t = { s with M := t.M, status := .ok, redraw := false } ∧
        (t.readByte s.I.toNat).toNat = s.V[x].toNat / 100 ∧
        (t.readByte (s.I.toNat + 1)).toNat = s.V[x].toNat / 10 % 10 ∧
        (t.readByte (s.I.toNat + 2)).toNat = s.V[x].toNat % 10 ∧
        ∀ a, a < s.I.toNat ∨ a > s.I.toNat + 2 → t.readByte a = s.readByte a) ∧
    (s.I.toNat + 2 > 0xFFF →
      exec (.ldBcd x) s =
        .next { s with status := .fault (.outOfBounds (.memRange s.I.toNat 3)), redraw := false }) ∧
    (s.I.toNat + 2 ≤ 0xFFF → s.cfg.enforceFontReadonly = true → s.I.toNat ≤ s.cfg.fontBase.val + 79 →
      s.I.toNat + 2 ≥ s.cfg.fontBase.val →
      exec (.ldBcd x) s = .next { s with status := .fault (.specFault (.fontWrite s.I.toNat)), redraw := false })

/-- Fx55. In range and clear of a protected font it stores V[0]..V[x] at I..I+x; every other address reads as before,
I is unchanged and nothing but memory changes. Past 0xFFF it is an OutOfBoundsError(mem_range), in range and meeting a
protected font a SpecFault(font_write), and nothing is written (R224). -/
def Obligations.StoreWritesRegistersFromI : Prop :=
  ∀ (x : Reg) (s : State),
    (s.I.toNat + x.val ≤ 0xFFF →
      (s.cfg.enforceFontReadonly = true →
        s.I.toNat > s.cfg.fontBase.val + 79 ∨ s.I.toNat + x.val < s.cfg.fontBase.val) →
      ∃ t, exec (.storeRegs x) s = .next t ∧ t = { s with M := t.M, status := .ok, redraw := false } ∧
        (∀ r : Reg, r ≤ x → t.readByte (s.I.toNat + r.val) = s.V[r]) ∧
        ∀ a, a < s.I.toNat ∨ a > s.I.toNat + x.val → t.readByte a = s.readByte a) ∧
    (s.I.toNat + x.val > 0xFFF →
      exec (.storeRegs x) s =
        .next { s with status := .fault (.outOfBounds (.memRange s.I.toNat (x.val + 1))), redraw := false }) ∧
    (s.I.toNat + x.val ≤ 0xFFF → s.cfg.enforceFontReadonly = true → s.I.toNat ≤ s.cfg.fontBase.val + 79 →
      s.I.toNat + x.val ≥ s.cfg.fontBase.val →
      exec (.storeRegs x) s = .next { s with status := .fault (.specFault (.fontWrite s.I.toNat)), redraw := false })

/-- Fx65. In range it loads V[0]..V[x] from I..I+x, wherever that is; every other register, I and memory are unchanged.
Past 0xFFF it is an OutOfBoundsError(mem_range) and no register is written (R225). -/
def Obligations.LoadReadsRegistersFromI : Prop :=
  ∀ (x : Reg) (s : State),
    (s.I.toNat + x.val ≤ 0xFFF →
      ∃ t, exec (.loadRegs x) s = .next t ∧ t = { s with V := t.V, status := .ok, redraw := false } ∧
        ∀ r : Reg, t.V[r] = if r ≤ x then s.readByte (s.I.toNat + r.val) else s.V[r]) ∧
    (s.I.toNat + x.val > 0xFFF →
      exec (.loadRegs x) s =
        .next { s with status := .fault (.outOfBounds (.memRange s.I.toNat (x.val + 1))), redraw := false })

/-- Self-modifying code: two registers that Fx55 stores over the word at the PC of a later fetch are that fetch's word,
the lower address its high byte (R64, R79). -/
def Obligations.StoredWordIsFetchedLater : Prop :=
  ∀ (x k : Reg) (s t u : State) (hk : k.val + 1 < 16), exec (.storeRegs x) s = .next t → t.status = .ok → k < x →
    u.M = t.M → u.cfg = t.cfg → u.loaded = t.loaded → u.memDraw = t.memDraw → u.PC.toNat = s.I.toNat + k.val →
    u.wordAtPC.toNat = s.V[k].toNat * 256 + s.V[k.val + 1].toNat

/-! ### Display -/

/-- 00E0: every pixel 0, redraw, VF and everything else unchanged (R250). -/
def Obligations.ClearScreenClearsEveryPixel : Prop :=
  ∀ s : State, ∃ d : Display,
    exec .cls s = .next { s with D := d, status := .ok, redraw := true } ∧
    ∀ (px : Fin 64) (py : Fin 32), d[py][px] = false

/-- Dxyn completes in every state: exactly the pixels the sprite covers toggle, wrapping on both axes; VF is 1 if one
of them was set and 0 if none was; redraw is true; the status is NonFatal with the first row address above 0xFFF if
there is one and Ok if not; no other register and nothing else changes (R251). -/
def Obligations.DrawTogglesExactlyTheSprite : Prop :=
  ∀ (x y : Reg) (n : Fin 16) (s : State), ∃ t, exec (.drw x y n) s = .next t ∧
    t = { s with V := t.V, D := t.D, status := t.status, redraw := true } ∧
    (∀ r : Reg, r ≠ 0xF → t.V[r] = s.V[r]) ∧
    (∀ px py, SpriteCovers s x y n.val px py → t.D[py][px] = !s.D[py][px]) ∧
    (∀ px py, ¬ SpriteCovers s x y n.val px py → t.D[py][px] = s.D[py][px]) ∧
    ((∃ px py, SpriteCovers s x y n.val px py ∧ s.D[py][px] = true) → t.V[15] = 1) ∧
    ((∀ px py, SpriteCovers s x y n.val px py → s.D[py][px] = false) → t.V[15] = 0) ∧
    ((∀ row < n.val, s.I.toNat + row ≤ 0xFFF) → t.status = .ok) ∧
    (∀ row < n.val, s.I.toNat + row > 0xFFF → (∀ r < row, s.I.toNat + r ≤ 0xFFF) →
      t.status = .nonFatal (.outOfBounds (.sprite (s.I.toNat + row))))

/-- Two successive draws of the same sprite at the same place, neither coordinate in VF, restore the display, and the
second ends with VF = 1 exactly when the first turned a pixel from 0 to 1. (R256, which the spec marks as its own
inference from R251 and R255.) -/
def Obligations.DrawingTwiceRestoresTheDisplay : Prop :=
  ∀ (x y : Reg) (n : Fin 16) (s t u v : State), x ≠ 0xF → y ≠ 0xF →
    exec (.drw x y n) s = .next t →
    u.D = t.D → u.V = t.V → u.I = t.I → (∀ row < n.val, u.readByte (s.I.toNat + row) = s.readByte (s.I.toNat + row)) →
    exec (.drw x y n) u = .next v →
    v.D = s.D ∧ (v.V[15] = 1 ↔ ∃ (px : Fin 64) (py : Fin 32), s.D[py][px] = false ∧ t.D[py][px] = true) ∧
    (v.V[15] = 1 ∨ v.V[15] = 0)

/-! ### Keys and timers -/

/-- Ex9E and ExA1: a skip on the key V[x] names, pressed or not pressed in this step; a value above 0xF is a
SpecFault(key_index_range, v) with no skip (R280, R281, R286). -/
def Obligations.KeySkipsTestTheKeyNamed : Prop :=
  ∀ (x : Reg) (s : State),
    (∀ k : Fin 16, s.V[x].toNat = k.val →
      exec (.skp x) s =
        .next { s with PC := if s.keys[k] = true then s.PC + 2 else s.PC, status := .ok, redraw := false } ∧
      exec (.sknp x) s =
        .next { s with PC := if s.keys[k] = true then s.PC else s.PC + 2, status := .ok, redraw := false }) ∧
    (s.V[x].toNat > 0xF →
      exec (.skp x) s = .next { s with status := .fault (.specFault (.keyIndexRange s.V[x])), redraw := false } ∧
      exec (.sknp x) s = .next { s with status := .fault (.specFault (.keyIndexRange s.V[x])), redraw := false })

/-- Fx0A: the lowest pressed key to V[x] at once; with no key pressed W = wait(x) and the status is AwaitingKey
(R283). -/
def Obligations.WaitForKeyTakesTheLowestOrWaits : Prop :=
  ∀ (x : Reg) (s : State),
    (∀ k : Fin 16, s.keys[k] = true → (∀ j : Fin 16, j < k → s.keys[j] = false) →
      exec (.ldKey x) s = .next { s with V := s.V.set x (BitVec.ofNat 8 k.val), status := .ok, redraw := false }) ∧
    ((∀ k : Fin 16, s.keys[k] = false) →
      exec (.ldKey x) s = .next { s with W := some x, status := .awaitingKey, redraw := false })

/-- Fx07, Fx15, Fx18: V[x] = DT, DT = V[x], ST = V[x], and nothing else changes (R282, R284, R285). -/
def Obligations.TimerRegistersMoveWhole : Prop :=
  ∀ (x : Reg) (s : State),
    exec (.ldFromDT x) s = .next { s with V := s.V.set x s.DT, status := .ok, redraw := false } ∧
    exec (.ldToDT x) s = .next { s with DT := s.V[x], status := .ok, redraw := false } ∧
    exec (.ldToST x) s = .next { s with ST := s.V[x], status := .ok, redraw := false }

/-! ### The host's other transactions, reset and the invariant -/

/-- tick_timers takes one from each timer above zero, in every state, and changes nothing else (R320). -/
def Obligations.TickCountsEachTimerTowardZero : Prop :=
  ∀ (s : State) (rest : List Transaction), s.pending = .tickTimers :: rest →
    step s = .next { s with pending := rest, DT := BitVec.ofNat 8 (s.DT.toNat - 1), ST := BitVec.ofNat 8 (s.ST.toNat - 1) }

/-- load with at most 3584 bytes, in any state: registers, I, stack pointer, timers and display cleared, PC = 0x200, no
wait, loaded, result Ok; the ROM stands verbatim at 0x200 and the font in the font region; the key vector is not
touched (R351). -/
def Obligations.LoadIsTheFullReset : Prop :=
  ∀ (s : State) (rom : List Byte) (rest : List Transaction),
    s.pending = .load rom :: rest → rom.length ≤ 3584 →
    ∃ t, step s = .next t ∧ (∀ r : Reg, t.V[r] = 0) ∧ t.I = 0 ∧ t.PC = 0x200 ∧ t.SP = 0 ∧ t.DT = 0 ∧ t.ST = 0 ∧
      (∀ (px : Fin 64) (py : Fin 32), t.D[py][px] = false) ∧ t.W = none ∧ t.loaded = true ∧ t.status = .ok ∧
      t.keys = s.keys ∧ t.cfg = s.cfg ∧ t.pending = rest ∧
      (∀ k (h : k < rom.length), t.readByte (0x200 + k) = rom[k]) ∧
      (∀ g (h : g < 80), ¬ (0x200 ≤ s.cfg.fontBase.val + g ∧ s.cfg.fontBase.val + g < 0x200 + rom.length) →
        t.readByte (s.cfg.fontBase.val + g) = s.cfg.fontTable[g])

/-- What a load does not write: every byte outside ROM and font is a fresh draw (R73), and, the model's choice (log
entries 1 and 11), the stack slots stay as they were. -/
def Obligations.LoadLeavesTheRestADraw : Prop :=
  ∀ (s t : State) (rom : List Byte) (rest : List Transaction),
    s.pending = .load rom :: rest → rom.length ≤ 3584 → step s = .next t →
      t.S = s.S ∧ t.memDraw = s.memDraw + 1 ∧
      (∀ a, ¬ (0x200 ≤ a ∧ a < 0x200 + rom.length) → ¬ (s.cfg.fontBase.val ≤ a ∧ a < s.cfg.fontBase.val + 80) →
        t.readByte a = Config.memoryDraw t.memDraw a)

/-- load with more than 3584 bytes changes nothing, the load flag included, and returns CapacityError(len); any shorter
ROM, of exactly 3584 or of 0 bytes too, is loaded (R352). -/
def Obligations.OversizeLoadChangesNothing : Prop :=
  ∀ (s : State) (rom : List Byte) (rest : List Transaction), s.pending = .load rom :: rest →
    (rom.length > 3584 → step s = .next { s with pending := rest, status := .fault (.capacity rom.length) }) ∧
    (rom.length ≤ 3584 → ∃ t, step s = .next t ∧ t.status = .ok ∧ t.loaded = true)

/-- The reset state holds the values R38 gives after a successful load: PC = 0x200, everything else zero, clear or none,
the font at FONT_BASE. That reset is the state after a load (log entry 10), with the parameters at their defaults,
FONT_BASE = 0x050 among them (log entry 8), and with the default font bytes (log entry 3), is the model's choice. -/
def Obligations.ResetHoldsTheStatedValues : Prop :=
  State.reset.loaded = true ∧ State.reset.W = none ∧ (∀ r : Reg, State.reset.V[r] = 0) ∧ State.reset.I = 0 ∧
  State.reset.PC = 0x200 ∧ State.reset.SP = 0 ∧ State.reset.DT = 0 ∧ State.reset.ST = 0 ∧
  (∀ (px : Fin 64) (py : Fin 32), State.reset.D[py][px] = false) ∧
  (∀ g (h : g < 80), State.reset.readByte (0x050 + g) = Config.defaultFont[g])

/-- No transaction changes the parameters, and a loaded machine stays loaded (R7, R39, R353). -/
def Obligations.LoadedMachineStaysLoaded : Prop :=
  ∀ s t : State, step s = .next t → t.cfg = s.cfg ∧ (s.loaded = true → t.loaded = true)

/-- The invariant holds at reset. -/
def Obligations.ResetMeetsTheInvariant : Prop := State.reset.Inv

/-- Every step, of whatever transaction, keeps the invariant: memory stays canonical, and on a loaded machine I stays a
memory address, PC at most 0x10FE and every return address in use at most 0x1000 (R27, R29). -/
def Obligations.EveryStepKeepsMachineBounds : Prop :=
  ∀ s t : State, s.Inv → step s = .next t → t.Inv
end

