-- ==== Sys2Proof/Laws/Decode.lean ====
section
/-! SUPPORT. The fields of an encoded word are the fields it was made from (30_encoding.md R91, R92, R100), and a word
is its fields. -/

namespace Sys2Proof

theorem n1_toNat (w : Word) : (n1 w).toNat = w.toNat / 0x1000 := by
  have := w.isLt
  simp only [n1, BitVec.extractLsb'_toNat, Nat.shiftRight_eq_div_pow]
  omega

theorem n4_toNat (w : Word) : (n4 w).toNat = w.toNat % 0x10 := by
  simp only [n4, BitVec.extractLsb'_toNat, Nat.shiftRight_eq_div_pow]
  omega

theorem fieldX_val (w : Word) : (fieldX w).val = w.toNat / 0x100 % 0x10 := by
  show (w.extractLsb' 8 4).toNat = _
  simp only [BitVec.extractLsb'_toNat, Nat.shiftRight_eq_div_pow]

theorem fieldY_val (w : Word) : (fieldY w).val = w.toNat / 0x10 % 0x10 := by
  show (w.extractLsb' 4 4).toNat = _
  simp only [BitVec.extractLsb'_toNat, Nat.shiftRight_eq_div_pow]

theorem fieldN_val (w : Word) : (fieldN w).val = w.toNat % 0x10 := by
  show (w.extractLsb' 0 4).toNat = _
  simp only [BitVec.extractLsb'_toNat, Nat.shiftRight_eq_div_pow]
  omega

theorem fieldKK_toNat (w : Word) : (fieldKK w).toNat = w.toNat % 0x100 := by
  simp only [fieldKK, BitVec.extractLsb'_toNat, Nat.shiftRight_eq_div_pow]
  omega

theorem fieldNNN_toNat (w : Word) : (fieldNNN w).toNat = w.toNat % 0x1000 := by
  simp only [fieldNNN, BitVec.extractLsb'_toNat, Nat.shiftRight_eq_div_pow]
  omega

/-! ### The arithmetic of the three formats (R100) -/

theorem formNNN_toNat (op : BitVec 4) (nnn : BitVec 12) :
    (formNNN op nnn).toNat = op.toNat * 0x1000 + nnn.toNat := by
  have := op.isLt; have := nnn.isLt
  simp only [formNNN, BitVec.toNat_ofNat]; omega

theorem formXKK_toNat (op : BitVec 4) (x : Reg) (kk : Byte) :
    (formXKK op x kk).toNat = op.toNat * 0x1000 + x.val * 0x100 + kk.toNat := by
  have := op.isLt; have := kk.isLt; have := x.isLt
  simp only [formXKK, BitVec.toNat_ofNat]; omega

theorem formXYN_toNat (op : BitVec 4) (x y : Reg) (n : BitVec 4) :
    (formXYN op x y n).toNat = op.toNat * 0x1000 + x.val * 0x100 + y.val * 0x10 + n.toNat := by
  have := op.isLt; have := n.isLt; have := x.isLt; have := y.isLt
  simp only [formXYN, BitVec.toNat_ofNat]; omega

/-! ### Fields of a formed word -/

section
variable (op : BitVec 4) (nnn : BitVec 12) (x y : Reg) (kk : Byte) (n : BitVec 4)

@[simp] theorem n1_formNNN : n1 (formNNN op nnn) = op := by
  apply BitVec.eq_of_toNat_eq; have := nnn.isLt; rw [n1_toNat, formNNN_toNat]; omega

@[simp] theorem fieldNNN_formNNN : fieldNNN (formNNN op nnn) = nnn := by
  apply BitVec.eq_of_toNat_eq; have := nnn.isLt; rw [fieldNNN_toNat, formNNN_toNat]; omega

@[simp] theorem n1_formXKK : n1 (formXKK op x kk) = op := by
  apply BitVec.eq_of_toNat_eq; have := kk.isLt; have := x.isLt; rw [n1_toNat, formXKK_toNat]; omega

@[simp] theorem fieldX_formXKK : fieldX (formXKK op x kk) = x := by
  apply Fin.ext; have := kk.isLt; have := x.isLt; rw [fieldX_val, formXKK_toNat]; omega

@[simp] theorem fieldKK_formXKK : fieldKK (formXKK op x kk) = kk := by
  apply BitVec.eq_of_toNat_eq; have := kk.isLt; rw [fieldKK_toNat, formXKK_toNat]; omega

@[simp] theorem n1_formXYN : n1 (formXYN op x y n) = op := by
  apply BitVec.eq_of_toNat_eq; have := n.isLt; have := x.isLt; have := y.isLt; rw [n1_toNat, formXYN_toNat]; omega

@[simp] theorem n4_formXYN : n4 (formXYN op x y n) = n := by
  apply BitVec.eq_of_toNat_eq; have := n.isLt; rw [n4_toNat, formXYN_toNat]; omega

@[simp] theorem fieldX_formXYN : fieldX (formXYN op x y n) = x := by
  apply Fin.ext; have := n.isLt; have := x.isLt; have := y.isLt; rw [fieldX_val, formXYN_toNat]; omega

@[simp] theorem fieldY_formXYN : fieldY (formXYN op x y n) = y := by
  apply Fin.ext; have := n.isLt; have := y.isLt; rw [fieldY_val, formXYN_toNat]; omega

@[simp] theorem fieldN_formXYN : fieldN (formXYN op x y n) = n.toFin := by
  apply Fin.ext
  have := n.isLt
  rw [fieldN_val, formXYN_toNat]
  show _ = n.toNat
  omega

end

/-! ### A word is its fields -/

theorem formNNN_fields (w : Word) : formNNN (n1 w) (fieldNNN w) = w := by
  apply BitVec.eq_of_toNat_eq; rw [formNNN_toNat, n1_toNat, fieldNNN_toNat]; omega

theorem formXKK_fields (w : Word) : formXKK (n1 w) (fieldX w) (fieldKK w) = w := by
  apply BitVec.eq_of_toNat_eq; rw [formXKK_toNat, n1_toNat, fieldX_val, fieldKK_toNat]; omega

theorem formXYN_fields (w : Word) : formXYN (n1 w) (fieldX w) (fieldY w) (n4 w) = w := by
  apply BitVec.eq_of_toNat_eq; rw [formXYN_toNat, n1_toNat, fieldX_val, fieldY_val, n4_toNat]; omega

/-- The value of a word is 256 times its high byte plus its low byte (R63). -/
theorem wordOfBytes_toNat (hi lo : Byte) : (wordOfBytes hi lo).toNat = hi.toNat * 256 + lo.toNat := by
  have := lo.isLt
  simp only [wordOfBytes, BitVec.toNat_append, Nat.shiftLeft_eq]
  rw [Nat.mul_comm, ← Nat.two_pow_add_eq_or_of_lt (by omega)]

/-- The two bytes of a word make the word again (R63). -/
@[simp] theorem wordOfBytes_bytesOfWord (w : Word) : wordOfBytes (bytesOfWord w).1 (bytesOfWord w).2 = w := by
  apply BitVec.eq_of_toNat_eq
  have := w.isLt
  rw [wordOfBytes_toNat]
  simp only [bytesOfWord, BitVec.extractLsb'_toNat, Nat.shiftRight_eq_div_pow]
  omega

end Sys2Proof
end

