-- ==== Sys2Proof/Laws/State.lean ====
section
/-! SUPPORT. One lemma per field per update of State, so that no later proof unfolds a record update. -/

namespace Sys2Proof.Machine

variable (s : State)

/-! ### setV -/

@[simp] theorem State.setV_cfg (x : Reg) (b : Byte) : (s.setV x b).cfg = s.cfg := rfl
@[simp] theorem State.setV_M (x : Reg) (b : Byte) : (s.setV x b).M = s.M := rfl
@[simp] theorem State.setV_memDraw (x : Reg) (b : Byte) : (s.setV x b).memDraw = s.memDraw := rfl
@[simp] theorem State.setV_V (x : Reg) (b : Byte) : (s.setV x b).V = s.V.set x b := rfl
@[simp] theorem State.setV_I (x : Reg) (b : Byte) : (s.setV x b).I = s.I := rfl
@[simp] theorem State.setV_PC (x : Reg) (b : Byte) : (s.setV x b).PC = s.PC := rfl
@[simp] theorem State.setV_SP (x : Reg) (b : Byte) : (s.setV x b).SP = s.SP := rfl
@[simp] theorem State.setV_S (x : Reg) (b : Byte) : (s.setV x b).S = s.S := rfl
@[simp] theorem State.setV_DT (x : Reg) (b : Byte) : (s.setV x b).DT = s.DT := rfl
@[simp] theorem State.setV_ST (x : Reg) (b : Byte) : (s.setV x b).ST = s.ST := rfl
@[simp] theorem State.setV_D (x : Reg) (b : Byte) : (s.setV x b).D = s.D := rfl
@[simp] theorem State.setV_loaded (x : Reg) (b : Byte) : (s.setV x b).loaded = s.loaded := rfl
@[simp] theorem State.setV_W (x : Reg) (b : Byte) : (s.setV x b).W = s.W := rfl
@[simp] theorem State.setV_keys (x : Reg) (b : Byte) : (s.setV x b).keys = s.keys := rfl
@[simp] theorem State.setV_rand (x : Reg) (b : Byte) : (s.setV x b).rand = s.rand := rfl
@[simp] theorem State.setV_randDraw (x : Reg) (b : Byte) : (s.setV x b).randDraw = s.randDraw := rfl
@[simp] theorem State.setV_pending (x : Reg) (b : Byte) : (s.setV x b).pending = s.pending := rfl
@[simp] theorem State.setV_status (x : Reg) (b : Byte) : (s.setV x b).status = s.status := rfl
@[simp] theorem State.setV_redraw (x : Reg) (b : Byte) : (s.setV x b).redraw = s.redraw := rfl

/-! ### setI -/

@[simp] theorem State.setI_cfg (a : Word) : (s.setI a).cfg = s.cfg := rfl
@[simp] theorem State.setI_M (a : Word) : (s.setI a).M = s.M := rfl
@[simp] theorem State.setI_memDraw (a : Word) : (s.setI a).memDraw = s.memDraw := rfl
@[simp] theorem State.setI_V (a : Word) : (s.setI a).V = s.V := rfl
@[simp] theorem State.setI_I (a : Word) : (s.setI a).I = a := rfl
@[simp] theorem State.setI_PC (a : Word) : (s.setI a).PC = s.PC := rfl
@[simp] theorem State.setI_SP (a : Word) : (s.setI a).SP = s.SP := rfl
@[simp] theorem State.setI_S (a : Word) : (s.setI a).S = s.S := rfl
@[simp] theorem State.setI_DT (a : Word) : (s.setI a).DT = s.DT := rfl
@[simp] theorem State.setI_ST (a : Word) : (s.setI a).ST = s.ST := rfl
@[simp] theorem State.setI_D (a : Word) : (s.setI a).D = s.D := rfl
@[simp] theorem State.setI_loaded (a : Word) : (s.setI a).loaded = s.loaded := rfl
@[simp] theorem State.setI_W (a : Word) : (s.setI a).W = s.W := rfl
@[simp] theorem State.setI_keys (a : Word) : (s.setI a).keys = s.keys := rfl
@[simp] theorem State.setI_rand (a : Word) : (s.setI a).rand = s.rand := rfl
@[simp] theorem State.setI_randDraw (a : Word) : (s.setI a).randDraw = s.randDraw := rfl
@[simp] theorem State.setI_pending (a : Word) : (s.setI a).pending = s.pending := rfl
@[simp] theorem State.setI_status (a : Word) : (s.setI a).status = s.status := rfl
@[simp] theorem State.setI_redraw (a : Word) : (s.setI a).redraw = s.redraw := rfl

/-! ### setPC -/

@[simp] theorem State.setPC_cfg (a : Word) : (s.setPC a).cfg = s.cfg := rfl
@[simp] theorem State.setPC_M (a : Word) : (s.setPC a).M = s.M := rfl
@[simp] theorem State.setPC_memDraw (a : Word) : (s.setPC a).memDraw = s.memDraw := rfl
@[simp] theorem State.setPC_V (a : Word) : (s.setPC a).V = s.V := rfl
@[simp] theorem State.setPC_I (a : Word) : (s.setPC a).I = s.I := rfl
@[simp] theorem State.setPC_PC (a : Word) : (s.setPC a).PC = a := rfl
@[simp] theorem State.setPC_SP (a : Word) : (s.setPC a).SP = s.SP := rfl
@[simp] theorem State.setPC_S (a : Word) : (s.setPC a).S = s.S := rfl
@[simp] theorem State.setPC_DT (a : Word) : (s.setPC a).DT = s.DT := rfl
@[simp] theorem State.setPC_ST (a : Word) : (s.setPC a).ST = s.ST := rfl
@[simp] theorem State.setPC_D (a : Word) : (s.setPC a).D = s.D := rfl
@[simp] theorem State.setPC_loaded (a : Word) : (s.setPC a).loaded = s.loaded := rfl
@[simp] theorem State.setPC_W (a : Word) : (s.setPC a).W = s.W := rfl
@[simp] theorem State.setPC_keys (a : Word) : (s.setPC a).keys = s.keys := rfl
@[simp] theorem State.setPC_rand (a : Word) : (s.setPC a).rand = s.rand := rfl
@[simp] theorem State.setPC_randDraw (a : Word) : (s.setPC a).randDraw = s.randDraw := rfl
@[simp] theorem State.setPC_pending (a : Word) : (s.setPC a).pending = s.pending := rfl
@[simp] theorem State.setPC_status (a : Word) : (s.setPC a).status = s.status := rfl
@[simp] theorem State.setPC_redraw (a : Word) : (s.setPC a).redraw = s.redraw := rfl

/-! ### setDT -/

@[simp] theorem State.setDT_cfg (b : Byte) : (s.setDT b).cfg = s.cfg := rfl
@[simp] theorem State.setDT_M (b : Byte) : (s.setDT b).M = s.M := rfl
@[simp] theorem State.setDT_memDraw (b : Byte) : (s.setDT b).memDraw = s.memDraw := rfl
@[simp] theorem State.setDT_V (b : Byte) : (s.setDT b).V = s.V := rfl
@[simp] theorem State.setDT_I (b : Byte) : (s.setDT b).I = s.I := rfl
@[simp] theorem State.setDT_PC (b : Byte) : (s.setDT b).PC = s.PC := rfl
@[simp] theorem State.setDT_SP (b : Byte) : (s.setDT b).SP = s.SP := rfl
@[simp] theorem State.setDT_S (b : Byte) : (s.setDT b).S = s.S := rfl
@[simp] theorem State.setDT_DT (b : Byte) : (s.setDT b).DT = b := rfl
@[simp] theorem State.setDT_ST (b : Byte) : (s.setDT b).ST = s.ST := rfl
@[simp] theorem State.setDT_D (b : Byte) : (s.setDT b).D = s.D := rfl
@[simp] theorem State.setDT_loaded (b : Byte) : (s.setDT b).loaded = s.loaded := rfl
@[simp] theorem State.setDT_W (b : Byte) : (s.setDT b).W = s.W := rfl
@[simp] theorem State.setDT_keys (b : Byte) : (s.setDT b).keys = s.keys := rfl
@[simp] theorem State.setDT_rand (b : Byte) : (s.setDT b).rand = s.rand := rfl
@[simp] theorem State.setDT_randDraw (b : Byte) : (s.setDT b).randDraw = s.randDraw := rfl
@[simp] theorem State.setDT_pending (b : Byte) : (s.setDT b).pending = s.pending := rfl
@[simp] theorem State.setDT_status (b : Byte) : (s.setDT b).status = s.status := rfl
@[simp] theorem State.setDT_redraw (b : Byte) : (s.setDT b).redraw = s.redraw := rfl

/-! ### setST -/

@[simp] theorem State.setST_cfg (b : Byte) : (s.setST b).cfg = s.cfg := rfl
@[simp] theorem State.setST_M (b : Byte) : (s.setST b).M = s.M := rfl
@[simp] theorem State.setST_memDraw (b : Byte) : (s.setST b).memDraw = s.memDraw := rfl
@[simp] theorem State.setST_V (b : Byte) : (s.setST b).V = s.V := rfl
@[simp] theorem State.setST_I (b : Byte) : (s.setST b).I = s.I := rfl
@[simp] theorem State.setST_PC (b : Byte) : (s.setST b).PC = s.PC := rfl
@[simp] theorem State.setST_SP (b : Byte) : (s.setST b).SP = s.SP := rfl
@[simp] theorem State.setST_S (b : Byte) : (s.setST b).S = s.S := rfl
@[simp] theorem State.setST_DT (b : Byte) : (s.setST b).DT = s.DT := rfl
@[simp] theorem State.setST_ST (b : Byte) : (s.setST b).ST = b := rfl
@[simp] theorem State.setST_D (b : Byte) : (s.setST b).D = s.D := rfl
@[simp] theorem State.setST_loaded (b : Byte) : (s.setST b).loaded = s.loaded := rfl
@[simp] theorem State.setST_W (b : Byte) : (s.setST b).W = s.W := rfl
@[simp] theorem State.setST_keys (b : Byte) : (s.setST b).keys = s.keys := rfl
@[simp] theorem State.setST_rand (b : Byte) : (s.setST b).rand = s.rand := rfl
@[simp] theorem State.setST_randDraw (b : Byte) : (s.setST b).randDraw = s.randDraw := rfl
@[simp] theorem State.setST_pending (b : Byte) : (s.setST b).pending = s.pending := rfl
@[simp] theorem State.setST_status (b : Byte) : (s.setST b).status = s.status := rfl
@[simp] theorem State.setST_redraw (b : Byte) : (s.setST b).redraw = s.redraw := rfl

/-! ### setW -/

@[simp] theorem State.setW_cfg (w : Option Reg) : (s.setW w).cfg = s.cfg := rfl
@[simp] theorem State.setW_M (w : Option Reg) : (s.setW w).M = s.M := rfl
@[simp] theorem State.setW_memDraw (w : Option Reg) : (s.setW w).memDraw = s.memDraw := rfl
@[simp] theorem State.setW_V (w : Option Reg) : (s.setW w).V = s.V := rfl
@[simp] theorem State.setW_I (w : Option Reg) : (s.setW w).I = s.I := rfl
@[simp] theorem State.setW_PC (w : Option Reg) : (s.setW w).PC = s.PC := rfl
@[simp] theorem State.setW_SP (w : Option Reg) : (s.setW w).SP = s.SP := rfl
@[simp] theorem State.setW_S (w : Option Reg) : (s.setW w).S = s.S := rfl
@[simp] theorem State.setW_DT (w : Option Reg) : (s.setW w).DT = s.DT := rfl
@[simp] theorem State.setW_ST (w : Option Reg) : (s.setW w).ST = s.ST := rfl
@[simp] theorem State.setW_D (w : Option Reg) : (s.setW w).D = s.D := rfl
@[simp] theorem State.setW_loaded (w : Option Reg) : (s.setW w).loaded = s.loaded := rfl
@[simp] theorem State.setW_W (w : Option Reg) : (s.setW w).W = w := rfl
@[simp] theorem State.setW_keys (w : Option Reg) : (s.setW w).keys = s.keys := rfl
@[simp] theorem State.setW_rand (w : Option Reg) : (s.setW w).rand = s.rand := rfl
@[simp] theorem State.setW_randDraw (w : Option Reg) : (s.setW w).randDraw = s.randDraw := rfl
@[simp] theorem State.setW_pending (w : Option Reg) : (s.setW w).pending = s.pending := rfl
@[simp] theorem State.setW_status (w : Option Reg) : (s.setW w).status = s.status := rfl
@[simp] theorem State.setW_redraw (w : Option Reg) : (s.setW w).redraw = s.redraw := rfl

/-! ### setStack -/

@[simp] theorem State.setStack_cfg (slots : Vector Word 16) (sp : Fin 17) : (s.setStack slots sp).cfg = s.cfg := rfl
@[simp] theorem State.setStack_M (slots : Vector Word 16) (sp : Fin 17) : (s.setStack slots sp).M = s.M := rfl
@[simp] theorem State.setStack_memDraw (slots : Vector Word 16) (sp : Fin 17) : (s.setStack slots sp).memDraw = s.memDraw := rfl
@[simp] theorem State.setStack_V (slots : Vector Word 16) (sp : Fin 17) : (s.setStack slots sp).V = s.V := rfl
@[simp] theorem State.setStack_I (slots : Vector Word 16) (sp : Fin 17) : (s.setStack slots sp).I = s.I := rfl
@[simp] theorem State.setStack_PC (slots : Vector Word 16) (sp : Fin 17) : (s.setStack slots sp).PC = s.PC := rfl
@[simp] theorem State.setStack_SP (slots : Vector Word 16) (sp : Fin 17) : (s.setStack slots sp).SP = sp := rfl
@[simp] theorem State.setStack_S (slots : Vector Word 16) (sp : Fin 17) : (s.setStack slots sp).S = slots := rfl
@[simp] theorem State.setStack_DT (slots : Vector Word 16) (sp : Fin 17) : (s.setStack slots sp).DT = s.DT := rfl
@[simp] theorem State.setStack_ST (slots : Vector Word 16) (sp : Fin 17) : (s.setStack slots sp).ST = s.ST := rfl
@[simp] theorem State.setStack_D (slots : Vector Word 16) (sp : Fin 17) : (s.setStack slots sp).D = s.D := rfl
@[simp] theorem State.setStack_loaded (slots : Vector Word 16) (sp : Fin 17) : (s.setStack slots sp).loaded = s.loaded := rfl
@[simp] theorem State.setStack_W (slots : Vector Word 16) (sp : Fin 17) : (s.setStack slots sp).W = s.W := rfl
@[simp] theorem State.setStack_keys (slots : Vector Word 16) (sp : Fin 17) : (s.setStack slots sp).keys = s.keys := rfl
@[simp] theorem State.setStack_rand (slots : Vector Word 16) (sp : Fin 17) : (s.setStack slots sp).rand = s.rand := rfl
@[simp] theorem State.setStack_randDraw (slots : Vector Word 16) (sp : Fin 17) : (s.setStack slots sp).randDraw = s.randDraw := rfl
@[simp] theorem State.setStack_pending (slots : Vector Word 16) (sp : Fin 17) : (s.setStack slots sp).pending = s.pending := rfl
@[simp] theorem State.setStack_status (slots : Vector Word 16) (sp : Fin 17) : (s.setStack slots sp).status = s.status := rfl
@[simp] theorem State.setStack_redraw (slots : Vector Word 16) (sp : Fin 17) : (s.setStack slots sp).redraw = s.redraw := rfl

/-! ### setD -/

@[simp] theorem State.setD_cfg (d : Display) : (s.setD d).cfg = s.cfg := rfl
@[simp] theorem State.setD_M (d : Display) : (s.setD d).M = s.M := rfl
@[simp] theorem State.setD_memDraw (d : Display) : (s.setD d).memDraw = s.memDraw := rfl
@[simp] theorem State.setD_V (d : Display) : (s.setD d).V = s.V := rfl
@[simp] theorem State.setD_I (d : Display) : (s.setD d).I = s.I := rfl
@[simp] theorem State.setD_PC (d : Display) : (s.setD d).PC = s.PC := rfl
@[simp] theorem State.setD_SP (d : Display) : (s.setD d).SP = s.SP := rfl
@[simp] theorem State.setD_S (d : Display) : (s.setD d).S = s.S := rfl
@[simp] theorem State.setD_DT (d : Display) : (s.setD d).DT = s.DT := rfl
@[simp] theorem State.setD_ST (d : Display) : (s.setD d).ST = s.ST := rfl
@[simp] theorem State.setD_D (d : Display) : (s.setD d).D = d := rfl
@[simp] theorem State.setD_loaded (d : Display) : (s.setD d).loaded = s.loaded := rfl
@[simp] theorem State.setD_W (d : Display) : (s.setD d).W = s.W := rfl
@[simp] theorem State.setD_keys (d : Display) : (s.setD d).keys = s.keys := rfl
@[simp] theorem State.setD_rand (d : Display) : (s.setD d).rand = s.rand := rfl
@[simp] theorem State.setD_randDraw (d : Display) : (s.setD d).randDraw = s.randDraw := rfl
@[simp] theorem State.setD_pending (d : Display) : (s.setD d).pending = s.pending := rfl
@[simp] theorem State.setD_status (d : Display) : (s.setD d).status = s.status := rfl
@[simp] theorem State.setD_redraw (d : Display) : (s.setD d).redraw = s.redraw := rfl

/-! ### writeByte -/

@[simp] theorem State.writeByte_cfg (a : Nat) (b : Byte) : (s.writeByte a b).cfg = s.cfg := rfl
@[simp] theorem State.writeByte_M (a : Nat) (b : Byte) : (s.writeByte a b).M = Memory.write s.image a b s.M := rfl
@[simp] theorem State.writeByte_memDraw (a : Nat) (b : Byte) : (s.writeByte a b).memDraw = s.memDraw := rfl
@[simp] theorem State.writeByte_V (a : Nat) (b : Byte) : (s.writeByte a b).V = s.V := rfl
@[simp] theorem State.writeByte_I (a : Nat) (b : Byte) : (s.writeByte a b).I = s.I := rfl
@[simp] theorem State.writeByte_PC (a : Nat) (b : Byte) : (s.writeByte a b).PC = s.PC := rfl
@[simp] theorem State.writeByte_SP (a : Nat) (b : Byte) : (s.writeByte a b).SP = s.SP := rfl
@[simp] theorem State.writeByte_S (a : Nat) (b : Byte) : (s.writeByte a b).S = s.S := rfl
@[simp] theorem State.writeByte_DT (a : Nat) (b : Byte) : (s.writeByte a b).DT = s.DT := rfl
@[simp] theorem State.writeByte_ST (a : Nat) (b : Byte) : (s.writeByte a b).ST = s.ST := rfl
@[simp] theorem State.writeByte_D (a : Nat) (b : Byte) : (s.writeByte a b).D = s.D := rfl
@[simp] theorem State.writeByte_loaded (a : Nat) (b : Byte) : (s.writeByte a b).loaded = s.loaded := rfl
@[simp] theorem State.writeByte_W (a : Nat) (b : Byte) : (s.writeByte a b).W = s.W := rfl
@[simp] theorem State.writeByte_keys (a : Nat) (b : Byte) : (s.writeByte a b).keys = s.keys := rfl
@[simp] theorem State.writeByte_rand (a : Nat) (b : Byte) : (s.writeByte a b).rand = s.rand := rfl
@[simp] theorem State.writeByte_randDraw (a : Nat) (b : Byte) : (s.writeByte a b).randDraw = s.randDraw := rfl
@[simp] theorem State.writeByte_pending (a : Nat) (b : Byte) : (s.writeByte a b).pending = s.pending := rfl
@[simp] theorem State.writeByte_status (a : Nat) (b : Byte) : (s.writeByte a b).status = s.status := rfl
@[simp] theorem State.writeByte_redraw (a : Nat) (b : Byte) : (s.writeByte a b).redraw = s.redraw := rfl

/-! ### output -/

@[simp] theorem State.output_cfg (st : Status) (rd : Bool) : (s.output st rd).cfg = s.cfg := rfl
@[simp] theorem State.output_M (st : Status) (rd : Bool) : (s.output st rd).M = s.M := rfl
@[simp] theorem State.output_memDraw (st : Status) (rd : Bool) : (s.output st rd).memDraw = s.memDraw := rfl
@[simp] theorem State.output_V (st : Status) (rd : Bool) : (s.output st rd).V = s.V := rfl
@[simp] theorem State.output_I (st : Status) (rd : Bool) : (s.output st rd).I = s.I := rfl
@[simp] theorem State.output_PC (st : Status) (rd : Bool) : (s.output st rd).PC = s.PC := rfl
@[simp] theorem State.output_SP (st : Status) (rd : Bool) : (s.output st rd).SP = s.SP := rfl
@[simp] theorem State.output_S (st : Status) (rd : Bool) : (s.output st rd).S = s.S := rfl
@[simp] theorem State.output_DT (st : Status) (rd : Bool) : (s.output st rd).DT = s.DT := rfl
@[simp] theorem State.output_ST (st : Status) (rd : Bool) : (s.output st rd).ST = s.ST := rfl
@[simp] theorem State.output_D (st : Status) (rd : Bool) : (s.output st rd).D = s.D := rfl
@[simp] theorem State.output_loaded (st : Status) (rd : Bool) : (s.output st rd).loaded = s.loaded := rfl
@[simp] theorem State.output_W (st : Status) (rd : Bool) : (s.output st rd).W = s.W := rfl
@[simp] theorem State.output_keys (st : Status) (rd : Bool) : (s.output st rd).keys = s.keys := rfl
@[simp] theorem State.output_rand (st : Status) (rd : Bool) : (s.output st rd).rand = s.rand := rfl
@[simp] theorem State.output_randDraw (st : Status) (rd : Bool) : (s.output st rd).randDraw = s.randDraw := rfl
@[simp] theorem State.output_pending (st : Status) (rd : Bool) : (s.output st rd).pending = s.pending := rfl
@[simp] theorem State.output_status (st : Status) (rd : Bool) : (s.output st rd).status = st := rfl
@[simp] theorem State.output_redraw (st : Status) (rd : Bool) : (s.output st rd).redraw = rd := rfl

/-! ### The updates defined through another one -/

@[simp] theorem State.setVF_eq (b : Byte) : s.setVF b = s.setV vf b := rfl
@[simp] theorem State.advance_eq : s.advance = s.setPC (s.PC + 2) := rfl

/-! ### Reads after an update of another field -/

@[simp] theorem State.image_setV (x : Reg) (b : Byte) : (s.setV x b).image = s.image := rfl
@[simp] theorem State.image_setD (d : Display) : (s.setD d).image = s.image := rfl
@[simp] theorem State.image_setPC (a : Word) : (s.setPC a).image = s.image := rfl
@[simp] theorem State.image_writeByte (a : Nat) (b : Byte) : (s.writeByte a b).image = s.image := rfl
@[simp] theorem State.readByte_setV (x : Reg) (b : Byte) (a : Nat) : (s.setV x b).readByte a = s.readByte a := rfl
@[simp] theorem State.readByte_setD (d : Display) (a : Nat) : (s.setD d).readByte a = s.readByte a := rfl
@[simp] theorem State.readByte_setPC (p : Word) (a : Nat) : (s.setPC p).readByte a = s.readByte a := rfl
@[simp] theorem State.indexed_setV (x : Reg) (b : Byte) (k : Nat) : (s.setV x b).indexed k = s.indexed k := rfl
@[simp] theorem State.indexed_setD (d : Display) (k : Nat) : (s.setD d).indexed k = s.indexed k := rfl
@[simp] theorem State.pixel_setV (x : Reg) (b : Byte) (px : Fin 64) (py : Fin 32) :
    (s.setV x b).pixel px py = s.pixel px py := rfl
@[simp] theorem State.getV_setD (d : Display) (x : Reg) : (s.setD d).getV x = s.getV x := rfl
@[simp] theorem State.getV_setPC (p : Word) (x : Reg) : (s.setPC p).getV x = s.getV x := rfl

/-! ### V registers -/

/-- A register written reads as the value written; every other register reads as before (R20). -/
theorem State.getV_setV (x y : Reg) (b : Byte) : (s.setV x b).getV y = if x = y then b else s.getV y := by
  simp only [State.getV, State.setV, Fin.getElem_fin, Vector.getElem_set, Fin.ext_iff]

@[simp] theorem State.getV_setV_self (x : Reg) (b : Byte) : (s.setV x b).getV x = b := by simp [State.getV_setV]

theorem State.getV_setV_ne {x y : Reg} (b : Byte) (h : x ≠ y) : (s.setV x b).getV y = s.getV y := by
  simp [State.getV_setV, h]

/-! ### Pixels -/

/-- Toggling one pixel flips it and leaves every other one alone (R251). -/
theorem State.pixel_togglePixel (px qx : Fin 64) (py qy : Fin 32) :
    (s.togglePixel px py).pixel qx qy = ((s.pixel qx qy) ^^ decide (px = qx ∧ py = qy)) := by
  simp only [State.pixel, State.togglePixel, State.setD, Fin.getElem_fin, Vector.getElem_set]
  by_cases hy : py = qy
  · subst hy
    by_cases hx : px = qx
    · subst hx; simp
    · simp [hx, Fin.val_ne_of_ne hx]
  · simp [hy, Fin.val_ne_of_ne hy]

/-- A display is known by its pixels. -/
theorem Display.ext_pixel {d e : Display} (h : ∀ (px : Fin 64) (py : Fin 32), d[py][px] = e[py][px]) : d = e := by
  apply Vector.ext
  intro j hj
  apply Vector.ext
  intro k hk
  exact h ⟨k, hk⟩ ⟨j, hj⟩

/-- A register file is known by its registers. -/
theorem regs_ext {v w : Vector Byte 16} (h : ∀ r : Reg, v[r] = w[r]) : v = w := by
  apply Vector.ext
  intro k hk
  exact h ⟨k, hk⟩

end Sys2Proof.Machine
end

