-- ==== Sys2Proof/Laws/Ops.lean ====
section
/-! SUPPORT. One lemma per shared operation that says what it can do; later proofs cite it and do not unfold it. -/

namespace Sys2Proof.Machine

/-! ### Ends of a transaction -/

@[simp] theorem finish_eq (st : Status) (rd : Bool) (s : State) : finish st rd s = .next (s.output st rd) := rfl
@[simp] theorem complete_eq (s : State) : complete s = .next (s.output .ok false) := rfl
@[simp] theorem raise_eq (e : Fault) (s : State) : raise e s = .next (s.output (.fault e) false) := rfl
@[simp] theorem attempt_ok {α : Type} (a : α) (s : State) (k : α → Result) : attempt (.ok a) s k = k a := rfl
@[simp] theorem attempt_error {α : Type} (e : Fault) (s : State) (k : α → Result) :
    attempt (.error e) s k = .next (s.output (.fault e) false) := rfl

/-- What `attempt` can do: the error it raises on the state it was given, or its continuation. -/
theorem attempt_cases {α : Type} {r : Except Fault α} {s : State} {k : α → Result} {t : Result}
    (h : attempt r s k = t) :
    (∃ e, r = .error e ∧ t = .next (s.output (.fault e) false)) ∨ ∃ a, r = .ok a ∧ t = k a := by
  cases r with
  | error e => exact .inl ⟨e, rfl, h.symm⟩
  | ok a => exact .inr ⟨a, rfl, h.symm⟩

/-! ### Stack (R32) -/

theorem State.push_ok {s : State} (a : Word) (h : s.SP.val < 16) :
    s.push a = .ok (s.setStack (s.S.set s.SP.val a h) ⟨s.SP.val + 1, by omega⟩) := by
  simp [State.push, h]

theorem State.push_full {s : State} (a : Word) (h : ¬ s.SP.val < 16) :
    s.push a = .error (.stackOverflow s.SP.val) := by
  simp [State.push, h]

theorem State.pop_ok {s : State} (h : 0 < s.SP.val) :
    s.pop = .ok (s.S[s.SP.val - 1]'(by omega), s.setStack s.S ⟨s.SP.val - 1, by omega⟩) := by
  simp [State.pop, h]

theorem State.pop_empty {s : State} (h : ¬ 0 < s.SP.val) : s.pop = .error (.stackUnderflow s.SP.val) := by
  simp [State.pop, h]

/-! ### Checks (R226, R227, R286, R194) -/

theorem checkRange_ok {a c : Nat} (h : a + c - 1 ≤ 0xFFF) : checkRange a c = .ok () := by
  rw [checkRange, if_neg (by omega)]

theorem checkRange_error {a c : Nat} (h : a + c - 1 > 0xFFF) :
    checkRange a c = .error (.outOfBounds (.memRange a c)) := by
  rw [checkRange, if_pos h]

theorem checkFontWrite_ok {cfg : Config} {a c : Nat}
    (h : ¬ (cfg.enforceFontReadonly = true ∧ a ≤ cfg.fontBase.val + 79 ∧ a + c - 1 ≥ cfg.fontBase.val)) :
    checkFontWrite cfg a c = .ok () := by
  rw [checkFontWrite, if_neg h]

theorem checkFontWrite_error {cfg : Config} {a c : Nat}
    (h : cfg.enforceFontReadonly = true ∧ a ≤ cfg.fontBase.val + 79 ∧ a + c - 1 ≥ cfg.fontBase.val) :
    checkFontWrite cfg a c = .error (.specFault (.fontWrite a)) := by
  rw [checkFontWrite, if_pos h]

theorem checkKeyIndex_ok {v : Byte} (h : v.toNat ≤ 0xF) : checkKeyIndex v = .ok ⟨v.toNat, by omega⟩ := by
  rw [checkKeyIndex, dif_pos h]

theorem checkKeyIndex_error {v : Byte} (h : ¬ v.toNat ≤ 0xF) :
    checkKeyIndex v = .error (.specFault (.keyIndexRange v)) := by
  rw [checkKeyIndex, dif_neg h]

theorem checkVfAlias_ok {cfg : Config} {names : Bool} (i : Instr)
    (h : cfg.vfAliasMode = .sequential ∨ names = false) : checkVfAlias cfg names i = .ok () := by
  rw [checkVfAlias, if_neg]
  rintro ⟨h1, h2⟩
  rcases h with h | h <;> simp_all

theorem checkVfAlias_error {cfg : Config} {names : Bool} (i : Instr)
    (h1 : cfg.vfAliasMode = .fault) (h2 : names = true) :
    checkVfAlias cfg names i = .error (.specFault (.vfAlias (encode i))) := by
  rw [checkVfAlias, if_pos ⟨h1, h2⟩]

end Sys2Proof.Machine
end

