-- ==== Sys2Proof/Laws/Draw.lean ====
section
/-! SUPPORT. What a draw does to each pixel and to VF (44_display.md R251 to R255): within one draw no pixel is
targeted twice, so each pixel is known from the display before the draw. -/

namespace Sys2Proof.Machine

theorem spriteColumn_inj {vx : Byte} {c d : Nat} (hc : c < 64) (hd : d < 64)
    (h : spriteColumn vx c = spriteColumn vx d) : c = d := by
  have := congrArg Fin.val h
  simp only [spriteColumn, Fin.ofNat] at this
  omega

theorem spriteRow_inj {vy : Byte} {r q : Nat} (hr : r < 32) (hq : q < 32)
    (h : spriteRow vy r = spriteRow vy q) : r = q := by
  have := congrArg Fin.val h
  simp only [spriteRow, Fin.ofNat] at this
  omega

/-! ### One pixel -/

theorem drawPixel_eq (px : Fin 64) (py : Fin 32) (s : State) :
    drawPixel px py s = { s with V := (drawPixel px py s).V, D := (drawPixel px py s).D } := by
  unfold drawPixel; split <;> rfl

theorem pixel_drawPixel (px qx : Fin 64) (py qy : Fin 32) (s : State) :
    (drawPixel px py s).pixel qx qy = ((s.pixel qx qy) ^^ decide (px = qx ∧ py = qy)) := by
  unfold drawPixel; rw [State.pixel_togglePixel]; split <;> rfl

theorem getV_drawPixel (px : Fin 64) (py : Fin 32) (s : State) (r : Reg) :
    (drawPixel px py s).getV r = if s.pixel px py = true ∧ r = vf then flag true else s.getV r := by
  unfold drawPixel
  simp only [State.togglePixel, State.getV_setD]
  by_cases h : s.pixel px py = true
  · simp only [h, if_true, State.setVF_eq, State.getV_setV, true_and]
    simp only [eq_comm]
  · simp [h]

/-! ### The columns of one sprite byte -/

theorem drawColumns_eq (b vx : Byte) (py : Fin 32) (cols : List Nat) (s : State) :
    drawColumns b vx py cols s =
      { s with V := (drawColumns b vx py cols s).V, D := (drawColumns b vx py cols s).D } := by
  induction cols generalizing s with
  | nil => rfl
  | cons c cs ih =>
    rw [drawColumns, ih]
    split
    · rw [drawPixel_eq]
    · rfl

@[simp] theorem indexed_drawColumns (b vx : Byte) (py : Fin 32) (cols : List Nat) (s : State) (k : Nat) :
    (drawColumns b vx py cols s).indexed k = s.indexed k := by rw [drawColumns_eq]; rfl

@[simp] theorem readByte_drawColumns (b vx : Byte) (py : Fin 32) (cols : List Nat) (s : State) (a : Nat) :
    (drawColumns b vx py cols s).readByte a = s.readByte a := by rw [drawColumns_eq]; rfl

@[simp] theorem I_drawColumns (b vx : Byte) (py : Fin 32) (cols : List Nat) (s : State) :
    (drawColumns b vx py cols s).I = s.I := by rw [drawColumns_eq]

/-- A pixel that no set bit of the byte falls on keeps its value. -/
theorem pixel_drawColumns_miss {b vx : Byte} {py qy : Fin 32} {qx : Fin 64} {cols : List Nat} {s : State}
    (h : ¬ (py = qy ∧ ∃ c ∈ cols, spriteBit b c = true ∧ spriteColumn vx c = qx)) :
    (drawColumns b vx py cols s).pixel qx qy = s.pixel qx qy := by
  induction cols generalizing s with
  | nil => rfl
  | cons c cs ih =>
    rw [drawColumns, ih (fun ⟨e, d, hd, hh⟩ => h ⟨e, d, List.mem_cons_of_mem _ hd, hh⟩)]
    split
    · rename_i hb
      rw [pixel_drawPixel, decide_eq_false, Bool.xor_false]
      exact fun ⟨e1, e2⟩ => h ⟨e2, c, List.mem_cons_self, hb, e1⟩
    · rfl

/-- A pixel that a set bit of the byte falls on flips, once. -/
theorem pixel_drawColumns_hit {b vx : Byte} {py : Fin 32} {c : Nat} {cols : List Nat} {s : State}
    (hn : cols.Nodup) (hlt : ∀ d ∈ cols, d < 64) (hc : c ∈ cols) (hb : spriteBit b c = true) :
    (drawColumns b vx py cols s).pixel (spriteColumn vx c) py = !(s.pixel (spriteColumn vx c) py) := by
  induction cols generalizing s with
  | nil => cases hc
  | cons d ds ih =>
    have hnd := List.nodup_cons.mp hn
    rw [drawColumns]
    rcases List.mem_cons.mp hc with rfl | hc'
    · rw [pixel_drawColumns_miss, if_pos hb, pixel_drawPixel]
      · simp
      · rintro ⟨-, e, he, -, heq⟩
        have := spriteColumn_inj (hlt e (List.mem_cons_of_mem _ he)) (hlt c List.mem_cons_self) heq
        exact hnd.1 (this ▸ he)
    · rw [ih hnd.2 (fun e he => hlt e (List.mem_cons_of_mem _ he)) hc']
      split
      · rw [pixel_drawPixel, decide_eq_false, Bool.xor_false]
        rintro ⟨heq, -⟩
        have := spriteColumn_inj (hlt d List.mem_cons_self) (hlt c hc) heq
        exact hnd.1 (this ▸ hc')
      · rfl

/-- A draw writes no register but VF. -/
theorem getV_drawColumns_ne {b vx : Byte} {py : Fin 32} {cols : List Nat} {s : State} {r : Reg} (h : r ≠ vf) :
    (drawColumns b vx py cols s).getV r = s.getV r := by
  induction cols generalizing s with
  | nil => rfl
  | cons c cs ih =>
    rw [drawColumns, ih]
    split
    · simp [getV_drawPixel, h]
    · rfl

/-- Within a draw VF only rises (R254). -/
theorem vf_drawColumns_mono {b vx : Byte} {py : Fin 32} {cols : List Nat} {s : State}
    (h : s.getV vf = flag true) : (drawColumns b vx py cols s).getV vf = flag true := by
  induction cols generalizing s with
  | nil => exact h
  | cons c cs ih =>
    rw [drawColumns]
    apply ih
    split
    · rw [getV_drawPixel]; split <;> simp_all
    · exact h

/-- A set bit on a set pixel is a collision. -/
theorem vf_drawColumns_hit {b vx : Byte} {py : Fin 32} {c : Nat} {cols : List Nat} {s : State}
    (hn : cols.Nodup) (hlt : ∀ d ∈ cols, d < 64) (hc : c ∈ cols) (hb : spriteBit b c = true)
    (hp : s.pixel (spriteColumn vx c) py = true) : (drawColumns b vx py cols s).getV vf = flag true := by
  induction cols generalizing s with
  | nil => cases hc
  | cons d ds ih =>
    have hnd := List.nodup_cons.mp hn
    rw [drawColumns]
    rcases List.mem_cons.mp hc with rfl | hc'
    · apply vf_drawColumns_mono
      rw [if_pos hb, getV_drawPixel]; simp [hp]
    · apply ih hnd.2 (fun e he => hlt e (List.mem_cons_of_mem _ he)) hc'
      split
      · rw [pixel_drawPixel, decide_eq_false, Bool.xor_false]
        · exact hp
        · rintro ⟨heq, -⟩
          have := spriteColumn_inj (hlt d List.mem_cons_self) (hlt c hc) heq
          exact hnd.1 (this ▸ hc')
      · exact hp

/-- Without a set bit on a set pixel VF keeps its value. -/
theorem vf_drawColumns_miss {b vx : Byte} {py : Fin 32} {cols : List Nat} {s : State}
    (hn : cols.Nodup) (hlt : ∀ d ∈ cols, d < 64)
    (h : ∀ c ∈ cols, spriteBit b c = true → s.pixel (spriteColumn vx c) py = false) :
    (drawColumns b vx py cols s).getV vf = s.getV vf := by
  induction cols generalizing s with
  | nil => rfl
  | cons d ds ih =>
    have hnd := List.nodup_cons.mp hn
    have hlt' : ∀ e ∈ ds, e < 64 := fun e he => hlt e (List.mem_cons_of_mem _ he)
    rw [drawColumns]
    split
    · rename_i hb
      rw [ih hnd.2 hlt', getV_drawPixel]
      · simp [h d List.mem_cons_self hb]
      · intro c hc hbc
        rw [pixel_drawPixel, decide_eq_false, Bool.xor_false]
        · exact h c (List.mem_cons_of_mem _ hc) hbc
        · rintro ⟨heq, -⟩
          have := spriteColumn_inj (hlt d List.mem_cons_self) (hlt' c hc) heq
          exact hnd.1 (this ▸ hc)
    · exact ih hnd.2 hlt' (fun c hc => h c (List.mem_cons_of_mem _ hc))

/-! ### The rows of a sprite -/

/-- Sprite row `r` of the sprite at I has a set bit on the pixel (R251 to R253). -/
def RowHits (s : State) (vx vy : Byte) (r : Nat) (px : Fin 64) (py : Fin 32) : Prop :=
  s.I.toNat + r ≤ 0xFFF ∧ spriteRow vy r = py ∧
    ∃ c ∈ List.range 8, spriteBit (s.readByte (s.I.toNat + r)) c = true ∧ spriteColumn vx c = px

theorem range8_lt : ∀ d ∈ List.range 8, d < 64 := by decide

theorem drawRows_eq (vx vy : Byte) (k row : Nat) (s : State) :
    (drawRows vx vy k row s).1 =
      { s with V := (drawRows vx vy k row s).1.V, D := (drawRows vx vy k row s).1.D } := by
  induction k generalizing row s with
  | zero => rfl
  | succ k ih =>
    rw [drawRows]
    split
    · rfl
    · rw [ih, drawColumns_eq]

/-- Where a draw stops: at the first row address above 0xFFF, if any row has one (R251). -/
theorem drawRows_stop (vx vy : Byte) (k row : Nat) (s : State) :
    (drawRows vx vy k row s).2 =
      if k = 0 ∨ s.I.toNat + row + k - 1 ≤ 0xFFF then none else some (max (s.I.toNat + row) 0x1000) := by
  induction k generalizing row s with
  | zero => rfl
  | succ k ih =>
    rw [drawRows]
    split
    · rename_i h
      simp only [State.indexed] at h ⊢
      rw [if_neg (by omega)]
      congr 1; omega
    · rename_i h
      simp only [State.indexed] at h
      rw [ih, I_drawColumns]
      by_cases hk : k = 0
      · subst hk; rw [if_pos (by omega), if_pos (by omega)]
      · by_cases h2 : s.I.toNat + row + (k + 1) - 1 ≤ 0xFFF
        · rw [if_pos (by omega), if_pos (by omega)]
        · rw [if_neg (by omega), if_neg (by omega)]
          congr 1; omega

theorem rowHits_drawColumns {b vx wx wy : Byte} {py qy : Fin 32} {qx : Fin 64} {cols : List Nat} {s : State} {r : Nat} :
    RowHits (drawColumns b vx py cols s) wx wy r qx qy ↔ RowHits s wx wy r qx qy := by
  simp [RowHits]

/-- A pixel that no row hits keeps its value. -/
theorem pixel_drawRows_miss {vx vy : Byte} {k row : Nat} {s : State} {px : Fin 64} {py : Fin 32}
    (h : ∀ r, row ≤ r → r < row + k → ¬ RowHits s vx vy r px py) :
    (drawRows vx vy k row s).1.pixel px py = s.pixel px py := by
  induction k generalizing row s with
  | zero => rfl
  | succ k ih =>
    rw [drawRows]
    split
    · rfl
    · rename_i hle
      rw [ih, pixel_drawColumns_miss]
      · rintro ⟨e, c, hc, hb, hx⟩
        simp only [State.indexed] at hle hb
        exact h row (le_refl _) (by omega) ⟨by omega, e, c, hc, hb, hx⟩
      · intro r h1 h2
        rw [rowHits_drawColumns]
        exact h r (by omega) (by omega)

/-- A pixel that some row hits flips, once (R255). -/
theorem pixel_drawRows_hit {vx vy : Byte} {k row r : Nat} {s : State} {px : Fin 64} {py : Fin 32}
    (hb : row + k ≤ 32) (h1 : row ≤ r) (h2 : r < row + k) (h : RowHits s vx vy r px py) :
    (drawRows vx vy k row s).1.pixel px py = !(s.pixel px py) := by
  induction k generalizing row s with
  | zero => omega
  | succ k ih =>
    rw [drawRows]
    have hle := h.1
    rw [if_neg (by simp only [State.indexed]; omega)]
    by_cases hr : r = row
    · subst hr
      obtain ⟨-, hy, c, hc, hbit, hx⟩ := h
      rw [pixel_drawRows_miss]
      · subst hy hx
        exact pixel_drawColumns_hit List.nodup_range range8_lt hc hbit
      · intro q h3 h4 hq
        have := spriteRow_inj (by omega) (by omega) (hq.2.1.trans hy.symm)
        omega
    · rw [ih (by omega) (by omega) (by omega) (rowHits_drawColumns.mpr h), pixel_drawColumns_miss]
      rintro ⟨e, -⟩
      have := spriteRow_inj (by omega) (by omega) (h.2.1.trans e.symm)
      omega

/-- A draw writes no register but VF. -/
theorem getV_drawRows_ne {vx vy : Byte} {k row : Nat} {s : State} {r : Reg} (h : r ≠ vf) :
    (drawRows vx vy k row s).1.getV r = s.getV r := by
  induction k generalizing row s with
  | zero => rfl
  | succ k ih =>
    rw [drawRows]
    split
    · rfl
    · rw [ih, getV_drawColumns_ne h]

theorem vf_drawRows_mono {vx vy : Byte} {k row : Nat} {s : State} (h : s.getV vf = flag true) :
    (drawRows vx vy k row s).1.getV vf = flag true := by
  induction k generalizing row s with
  | zero => exact h
  | succ k ih =>
    rw [drawRows]
    split
    · exact h
    · exact ih (vf_drawColumns_mono h)

/-- A row that hits a set pixel is a collision (R251). -/
theorem vf_drawRows_hit {vx vy : Byte} {k row r : Nat} {s : State} {px : Fin 64} {py : Fin 32}
    (hb : row + k ≤ 32) (h1 : row ≤ r) (h2 : r < row + k) (h : RowHits s vx vy r px py)
    (hp : s.pixel px py = true) : (drawRows vx vy k row s).1.getV vf = flag true := by
  induction k generalizing row s with
  | zero => omega
  | succ k ih =>
    rw [drawRows]
    have hle := h.1
    rw [if_neg (by simp only [State.indexed]; omega)]
    by_cases hr : r = row
    · subst hr
      obtain ⟨-, hy, c, hc, hbit, hx⟩ := h
      subst hy hx
      exact vf_drawRows_mono (vf_drawColumns_hit List.nodup_range range8_lt hc hbit hp)
    · refine ih (by omega) (by omega) (by omega) (rowHits_drawColumns.mpr h) ?_
      rw [pixel_drawColumns_miss]
      · exact hp
      · rintro ⟨e, -⟩
        have := spriteRow_inj (by omega) (by omega) (h.2.1.trans e.symm)
        omega

/-- Without a row that hits a set pixel VF keeps its value (R251). -/
theorem vf_drawRows_miss {vx vy : Byte} {k row : Nat} {s : State} (hb : row + k ≤ 32)
    (h : ∀ r px py, row ≤ r → r < row + k → RowHits s vx vy r px py → s.pixel px py = false) :
    (drawRows vx vy k row s).1.getV vf = s.getV vf := by
  induction k generalizing row s with
  | zero => rfl
  | succ k ih =>
    rw [drawRows]
    split
    · rfl
    · rename_i hle
      simp only [State.indexed] at hle
      rw [ih (by omega), vf_drawColumns_miss List.nodup_range range8_lt]
      · intro c hc hbit
        exact h row _ _ (le_refl _) (by omega) ⟨by omega, rfl, c, hc, hbit, rfl⟩
      · intro r px py h1 h2 hr
        have hr' := rowHits_drawColumns.mp hr
        rw [pixel_drawColumns_miss]
        · exact h r px py (by omega) (by omega) hr'
        · rintro ⟨e, -⟩
          have := spriteRow_inj (by omega) (by omega) (hr'.2.1.trans e.symm)
          omega

end Sys2Proof.Machine
end

