-- ==== Sys2Proof/Laws/Memory.lean ====
section
/-! SUPPORT. Memory: a read after a write, and the canonical form every operation keeps (20_memory.md R60, R75). -/

namespace Sys2Proof.Machine

theorem Memory.lookup_insert (a a' : Nat) (b : Byte) (m : List Host.Cell) :
    Memory.lookup (Memory.insert a b m) a' = if a = a' then some b else Memory.lookup m a' := by
  induction m with
  | nil => simp [Memory.insert, Memory.lookup]
  | cons c t ih =>
    obtain ⟨k, v⟩ := c
    unfold Memory.insert
    split_ifs with h1 h2 h3 h3 h3 <;> simp_all [Memory.lookup]
    intro hk; omega

theorem Memory.lookup_erase (a a' : Nat) (m : List Host.Cell) :
    Memory.lookup (Memory.erase a m) a' = if a = a' then none else Memory.lookup m a' := by
  induction m with
  | nil => simp [Memory.erase, Memory.lookup]
  | cons c t ih =>
    obtain ⟨k, v⟩ := c
    unfold Memory.erase
    split_ifs with h1 h2 h2 <;> simp_all [Memory.lookup]

/-- A byte written reads as written, and every other address reads as before (R11, R75). -/
theorem State.readByte_writeByte (s : State) (a a' : Nat) (b : Byte) :
    (s.writeByte a b).readByte a' = if a = a' then b else s.readByte a' := by
  simp only [State.readByte, State.writeByte_M, State.image_writeByte, State.writeByte_memDraw, Memory.write]
  by_cases h : s.image a = some b
  · simp only [h, if_true, Memory.lookup_erase]
    split_ifs with e
    · subst e; simp [h]
    · rfl
  · simp only [h, if_false, Memory.lookup_insert]
    split_ifs <;> rfl

/-! ### The canonical form -/

theorem Memory.mem_insert {a : Nat} {b : Byte} {m : List Host.Cell} {c : Host.Cell}
    (h : c ∈ Memory.insert a b m) : c = (a, b) ∨ c ∈ m := by
  induction m with
  | nil => simpa [Memory.insert] using h
  | cons d t ih =>
    obtain ⟨k, v⟩ := d
    unfold Memory.insert at h
    split_ifs at h
    · simpa using h
    · rcases List.mem_cons.mp h with h | h
      · exact .inl h
      · exact .inr (List.mem_cons_of_mem _ h)
    · rcases List.mem_cons.mp h with h | h
      · exact .inr (h ▸ List.mem_cons_self)
      · exact (ih h).imp id (List.mem_cons_of_mem _)

theorem Memory.mem_erase {a : Nat} {m : List Host.Cell} {c : Host.Cell} (h : c ∈ Memory.erase a m) : c ∈ m := by
  induction m with
  | nil => simp [Memory.erase] at h
  | cons d t ih =>
    obtain ⟨k, v⟩ := d
    unfold Memory.erase at h
    split_ifs at h
    · exact List.mem_cons_of_mem _ (ih h)
    · rcases List.mem_cons.mp h with h | h
      · exact h ▸ List.mem_cons_self
      · exact List.mem_cons_of_mem _ (ih h)

theorem Memory.rising_insert {a : Nat} {b : Byte} {m : List Host.Cell}
    (h : m.Pairwise (fun p q => p.1 < q.1)) : (Memory.insert a b m).Pairwise (fun p q => p.1 < q.1) := by
  induction m with
  | nil => simp [Memory.insert]
  | cons d t ih =>
    obtain ⟨k, v⟩ := d
    have hd := List.pairwise_cons.mp h
    unfold Memory.insert
    split_ifs with h1 h2
    · refine List.pairwise_cons.mpr ⟨fun c hc => ?_, h⟩
      rcases List.mem_cons.mp hc with e | hc
      · subst e; exact h1
      · exact lt_trans h1 (hd.1 c hc)
    · subst h2; exact List.pairwise_cons.mpr ⟨fun c hc => hd.1 c hc, hd.2⟩
    · refine List.pairwise_cons.mpr ⟨fun c hc => ?_, ih hd.2⟩
      rcases Memory.mem_insert hc with e | hc
      · subst e; show k < a; omega
      · exact hd.1 c hc

theorem Memory.rising_erase {a : Nat} {m : List Host.Cell}
    (h : m.Pairwise (fun p q => p.1 < q.1)) : (Memory.erase a m).Pairwise (fun p q => p.1 < q.1) := by
  induction m with
  | nil => simp [Memory.erase]
  | cons d t ih =>
    obtain ⟨k, v⟩ := d
    have hd := List.pairwise_cons.mp h
    unfold Memory.erase
    split_ifs
    · exact ih hd.2
    · exact List.pairwise_cons.mpr ⟨fun c hc => hd.1 c (Memory.mem_erase hc), ih hd.2⟩

/-- A write inside memory keeps the canonical form. -/
theorem Memory.write_keeps_wf {image : Nat → Option Byte} {a : Nat} {b : Byte} {m : List Host.Cell}
    (ha : a < 4096) (h : Memory.wf image m) : Memory.wf image (Memory.write image a b m) := by
  unfold Memory.write
  split_ifs with e
  · exact ⟨Memory.rising_erase h.1, fun c hc => h.2 c (Memory.mem_erase hc)⟩
  · refine ⟨Memory.rising_insert h.1, fun c hc => ?_⟩
    rcases Memory.mem_insert hc with rfl | hc
    · exact ⟨ha, e⟩
    · exact h.2 c hc

theorem Memory.mem_ofBytes {image : Nat → Option Byte} {a : Nat} {bs : List Byte} {c : Host.Cell}
    (h : c ∈ Memory.ofBytes image a bs) : a ≤ c.1 ∧ c.1 < a + bs.length ∧ image c.1 ≠ some c.2 := by
  induction bs generalizing a with
  | nil => simp [Memory.ofBytes] at h
  | cons b bs ih =>
    unfold Memory.ofBytes at h
    split_ifs at h with e
    · have := ih h; simp only [List.length_cons]; exact ⟨by omega, by omega, this.2.2⟩
    · rcases List.mem_cons.mp h with rfl | h
      · simpa using e
      · have := ih h; simp only [List.length_cons]; exact ⟨by omega, by omega, this.2.2⟩

/-- The cells of a byte sequence inside memory are in canonical form. -/
theorem Memory.ofBytes_wf {image : Nat → Option Byte} {a : Nat} {bs : List Byte} (h : a + bs.length ≤ 4096) :
    Memory.wf image (Memory.ofBytes image a bs) := by
  refine ⟨?_, fun c hc => ?_⟩
  · clear h
    induction bs generalizing a with
    | nil => simp [Memory.ofBytes]
    | cons b bs ih =>
      unfold Memory.ofBytes
      split_ifs
      · exact ih
      · exact List.pairwise_cons.mpr ⟨fun c hc => Nat.lt_of_succ_le (Memory.mem_ofBytes hc).1, ih⟩
  · have := Memory.mem_ofBytes hc
    exact ⟨by omega, this.2.2⟩

theorem Memory.lookup_ofBytes_below {image : Nat → Option Byte} {a a' : Nat} {bs : List Byte} (h : a' < a) :
    Memory.lookup (Memory.ofBytes image a bs) a' = none := by
  induction bs generalizing a with
  | nil => rfl
  | cons b bs ih =>
    unfold Memory.ofBytes
    split_ifs
    · exact ih (by omega)
    · simp only [Memory.lookup]
      rw [if_neg (by omega)]
      exact ih (by omega)

/-- What the cells of a byte sequence hold: each byte at its address, but where the image already is that byte. -/
theorem Memory.lookup_ofBytes (image : Nat → Option Byte) (a a' : Nat) (bs : List Byte) :
    Memory.lookup (Memory.ofBytes image a bs) a' =
      if h : a ≤ a' ∧ a' - a < bs.length then
        (if image a' = some (bs[a' - a]'h.2) then none else some (bs[a' - a]'h.2))
      else none := by
  induction bs generalizing a with
  | nil => simp [Memory.ofBytes, Memory.lookup]
  | cons b bs ih =>
    rcases lt_trichotomy a' a with hlt | heq | hgt
    · rw [Memory.lookup_ofBytes_below hlt, dif_neg (by omega)]
    · subst heq
      unfold Memory.ofBytes
      split_ifs with e <;> simp_all [Memory.lookup]
    · obtain ⟨d, rfl⟩ : ∃ d, a' = a + 1 + d := ⟨a' - a - 1, by omega⟩
      have step : Memory.lookup (Memory.ofBytes image a (b :: bs)) (a + 1 + d)
          = Memory.lookup (Memory.ofBytes image (a + 1) bs) (a + 1 + d) := by
        conv_lhs => unfold Memory.ofBytes
        split_ifs
        · rfl
        · simp only [Memory.lookup]; rw [if_neg (by omega)]
      rw [step, ih]
      have e1 : a + 1 + d - (a + 1) = d := by omega
      have e2 : a + 1 + d - a = d + 1 := by omega
      simp only [e1, e2, List.length_cons, List.getElem_cons_succ]
      have c1 : (a + 1 ≤ a + 1 + d ∧ d < bs.length) ↔ (a ≤ a + 1 + d ∧ d + 1 < bs.length + 1) := by omega
      simp only [c1]

/-! ### Stores of several bytes -/

/-- A store of bytes changes memory alone. -/
theorem State.writeBytes_eq (a : Nat) (bs : List Byte) (s : State) :
    s.writeBytes a bs = { s with M := (s.writeBytes a bs).M } := by
  induction bs generalizing a s with
  | nil => rfl
  | cons b bs ih => rw [State.writeBytes, ih]; rfl

/-- What a store of bytes can do: each byte stands at its address, every other address reads as before (R64). -/
theorem State.readByte_writeBytes (a a' : Nat) (bs : List Byte) (s : State) :
    (s.writeBytes a bs).readByte a' =
      if h : a ≤ a' ∧ a' - a < bs.length then bs[a' - a]'h.2 else s.readByte a' := by
  induction bs generalizing a s with
  | nil => simp [State.writeBytes]
  | cons b bs ih =>
    rw [State.writeBytes, ih, State.readByte_writeByte]
    rcases lt_trichotomy a' a with hlt | heq | hgt
    · rw [dif_neg (by omega), dif_neg (by omega), if_neg (by omega)]
    · subst heq; rw [dif_neg (by omega)]; simp
    · obtain ⟨d, rfl⟩ : ∃ d, a' = a + 1 + d := ⟨a' - a - 1, by omega⟩
      have e1 : a + 1 + d - (a + 1) = d := by omega
      have e2 : a + 1 + d - a = d + 1 := by omega
      simp only [e1, e2, List.length_cons, List.getElem_cons_succ]
      by_cases hd : d < bs.length
      · rw [dif_pos (by omega), dif_pos (by omega)]
      · rw [dif_neg (by omega), dif_neg (by omega), if_neg (by omega)]

/-- A store of bytes inside memory keeps the canonical form. -/
theorem State.writeBytes_keeps_wf (a : Nat) (bs : List Byte) (s : State) (ha : a + bs.length ≤ 4096)
    (h : Memory.wf s.image s.M) : Memory.wf (s.writeBytes a bs).image (s.writeBytes a bs).M := by
  induction bs generalizing a s with
  | nil => exact h
  | cons b bs ih =>
    simp only [List.length_cons] at ha
    exact ih (a + 1) (s.writeByte a b) (by omega) (Memory.write_keeps_wf (by omega) h)

end Sys2Proof.Machine
end

