-- ==== Sys2Proof/Laws/Index.lean ====
section
/-! SUPPORT. The register ranges and multi-byte transfers of Fx33, Fx55 and Fx65 (43_index_memory.md R223 to R225). -/

namespace Sys2Proof.Machine

theorem mem_regsUpTo (x r : Reg) : r ∈ regsUpTo x ↔ r.val ≤ x.val := by
  revert x r; decide

@[simp] theorem length_regsUpTo (x : Reg) : (regsUpTo x).length = x.val + 1 := by
  revert x; decide

theorem getElem_regsUpTo (x : Reg) (k : Nat) (h : k < (regsUpTo x).length) : ((regsUpTo x)[k]).val = k := by
  simp [regsUpTo, List.getElem_take, List.getElem_finRange]

@[simp] theorem length_valuesUpTo (s : State) (x : Reg) : (s.valuesUpTo x).length = x.val + 1 := by
  simp [State.valuesUpTo]

/-- Value k of V[0]..V[x] is V[k] (R224). -/
theorem getElem_valuesUpTo (s : State) (x : Reg) (k : Nat) (h : k < (s.valuesUpTo x).length) :
    (s.valuesUpTo x)[k] = s.V[k]'(by have := x.isLt; rw [length_valuesUpTo] at h; omega) := by
  simp only [State.valuesUpTo, List.getElem_map, State.getV]
  have hk : k < (regsUpTo x).length := by simpa [State.valuesUpTo] using h
  simp [getElem_regsUpTo x k hk]

/-- Loading registers changes V alone. -/
theorem loadInto_eq (rs : List Reg) (s : State) : loadInto rs s = { s with V := (loadInto rs s).V } := by
  induction rs generalizing s with
  | nil => rfl
  | cons r rs ih => rw [loadInto, ih]; rfl

/-- A register listed gets the byte at I plus its index, every other one keeps its value (R225). -/
theorem getV_loadInto (rs : List Reg) (s : State) (r : Reg) :
    (loadInto rs s).getV r = if r ∈ rs then s.readByte (s.I.toNat + r.val) else s.getV r := by
  induction rs generalizing s with
  | nil => simp [loadInto]
  | cons q rs ih =>
    rw [loadInto, ih]
    simp only [State.readByte_setV, State.setV_I, State.getV_setV, List.mem_cons, State.indexed]
    by_cases h1 : r ∈ rs
    · simp [h1]
    · by_cases h2 : q = r
      · subst h2; simp [h1]
      · simp [h1, h2, Ne.symm h2]

/-- What a store from I can do: a range error, a font error, or the bytes stored (R226, R227). -/
theorem storeAtI_cases (bs : List Byte) (s : State) :
    (s.I.toNat + bs.length - 1 > 0xFFF ∧
      storeAtI bs s = raise (.outOfBounds (.memRange s.I.toNat bs.length)) s) ∨
    (s.I.toNat + bs.length - 1 ≤ 0xFFF ∧ s.cfg.enforceFontReadonly = true ∧
      s.I.toNat ≤ s.cfg.fontBase.val + 79 ∧ s.I.toNat + bs.length - 1 ≥ s.cfg.fontBase.val ∧
      storeAtI bs s = raise (.specFault (.fontWrite s.I.toNat)) s) ∨
    (s.I.toNat + bs.length - 1 ≤ 0xFFF ∧
      ¬ (s.cfg.enforceFontReadonly = true ∧ s.I.toNat ≤ s.cfg.fontBase.val + 79 ∧
        s.I.toNat + bs.length - 1 ≥ s.cfg.fontBase.val) ∧
      storeAtI bs s = complete (s.writeBytes s.I.toNat bs)) := by
  by_cases h1 : s.I.toNat + bs.length - 1 > 0xFFF
  · exact .inl ⟨h1, by rw [storeAtI, checkRange_error h1]; rfl⟩
  · by_cases h2 : s.cfg.enforceFontReadonly = true ∧ s.I.toNat ≤ s.cfg.fontBase.val + 79 ∧
        s.I.toNat + bs.length - 1 ≥ s.cfg.fontBase.val
    · refine .inr (.inl ⟨by omega, h2.1, h2.2.1, h2.2.2, ?_⟩)
      rw [storeAtI, checkRange_ok (by omega), attempt_ok, checkFontWrite_error h2]; rfl
    · refine .inr (.inr ⟨by omega, h2, ?_⟩)
      rw [storeAtI, checkRange_ok (by omega), attempt_ok, checkFontWrite_ok h2]; rfl

end Sys2Proof.Machine
end

