-- ==== Sys2Proof/Laws/Engine.lean ====
section
/-! SUPPORT. What one step of the machine can do (40_engine.md R120 to R132), the lowest pressed key, and what a load
leaves in memory (70_reset_and_hazards.md R351). -/

namespace Sys2Proof.Machine

/-- A step whose transaction is a step is the step engine on the state with its inputs (R121). -/
theorem step_of_accepts {s s1 : State} (h : s.Accepts s1) : step s = stepSupplied s1 := by
  rcases h with ⟨K, r, rest, hp, rfl⟩ | ⟨hp, rfl⟩ <;> simp [step, serve, hp, stepWith, State.supply]

/-- Every step is one of the three transactions (R120). -/
theorem step_cases (s : State) :
    (∃ s1, s.Accepts s1 ∧ step s = stepSupplied s1) ∨
    (∃ rom rest, s.pending = .load rom :: rest ∧ step s = .next (load rom { s with pending := rest })) ∨
    (∃ rest, s.pending = .tickTimers :: rest ∧ step s = .next (tickTimers { s with pending := rest })) := by
  rcases hp : s.pending with _ | ⟨c, rest⟩
  · exact .inl ⟨_, .inr ⟨hp, rfl⟩, step_of_accepts (.inr ⟨hp, rfl⟩)⟩
  · cases c with
    | step K r => exact .inl ⟨_, .inl ⟨K, r, rest, hp, rfl⟩, step_of_accepts (.inl ⟨K, r, rest, hp, rfl⟩)⟩
    | load rom => exact .inr (.inl ⟨rom, rest, rfl, by simp [step, serve, hp]⟩)
    | tickTimers => exact .inr (.inr ⟨rest, rfl, by simp [step, serve, hp]⟩)

/-- Supplying the inputs changes the input latches and the model's own fields alone. -/
theorem accepts_frame {s s1 : State} (h : s.Accepts s1) :
    s1 = { s with keys := s1.keys, rand := s1.rand, randDraw := s1.randDraw, pending := s1.pending } := by
  rcases h with ⟨K, r, rest, -, rfl⟩ | ⟨-, rfl⟩ <;> rfl

/-- Supplying the inputs leaves every element of the core's state (R37), the parameters and the outputs alone. -/
theorem accepts_fields {s s1 : State} (h : s.Accepts s1) :
    s1.cfg = s.cfg ∧ s1.M = s.M ∧ s1.memDraw = s.memDraw ∧ s1.V = s.V ∧ s1.I = s.I ∧ s1.PC = s.PC ∧ s1.SP = s.SP ∧
    s1.S = s.S ∧ s1.DT = s.DT ∧ s1.ST = s.ST ∧ s1.D = s.D ∧ s1.loaded = s.loaded ∧ s1.W = s.W ∧
    s1.status = s.status ∧ s1.redraw = s.redraw := by
  rcases h with ⟨K, r, rest, -, rfl⟩ | ⟨-, rfl⟩ <;> exact
    ⟨rfl, rfl, rfl, rfl, rfl, rfl, rfl, rfl, rfl, rfl, rfl, rfl, rfl, rfl, rfl⟩

theorem fetches_of_accepts {s s1 : State} (h : s.Accepts s1) : s1.Fetches ↔ s.Fetches := by
  rcases h with ⟨K, r, rest, -, rfl⟩ | ⟨-, rfl⟩ <;> exact
    ⟨fun f => ⟨f.1, f.2, f.3, f.4⟩, fun f => ⟨f.1, f.2, f.3, f.4⟩⟩

theorem advance_of_accepts {s s1 : State} (h : s.Accepts s1) : s1.advance = { s1 with PC := s.PC + 2 } := by
  rcases h with ⟨K, r, rest, -, rfl⟩ | ⟨-, rfl⟩ <;> rfl

/-- The word a fetch reads, as arithmetic (R63). -/
theorem fetchedWord_eq (s : State) : s.fetchedWord = s.wordAtPC := by
  apply BitVec.eq_of_toNat_eq
  have h1 := (s.readByte s.PC.toNat).isLt
  have h2 := (s.readByte (s.PC.toNat + 1)).isLt
  simp only [State.fetchedWord, State.wordAtPC, wordOfBytes_toNat, BitVec.toNat_ofNat]
  omega

theorem wordAtPC_of_accepts {s s1 : State} (h : s.Accepts s1) : s1.wordAtPC = s.wordAtPC := by
  rw [accepts_frame h]; rfl

theorem checkFetch_ok {s : State} (h1 : s.PC.toNat + 1 ≤ 0xFFF)
    (h2 : s.cfg.enforceProgramFloor = true → 0x200 ≤ s.PC.toNat) : checkFetch s = .ok () := by
  rw [checkFetch, if_neg (by omega), if_neg]
  rintro ⟨h, hlt⟩
  exact absurd (h2 h) (by simpa [progBase] using hlt)

theorem checkFetch_bound {s : State} (h : s.PC.toNat + 1 > 0xFFF) :
    checkFetch s = .error (.outOfBounds (.fetch s.PC)) := by
  rw [checkFetch, if_pos h]

theorem checkFetch_floor {s : State} (h1 : s.PC.toNat + 1 ≤ 0xFFF) (h2 : s.cfg.enforceProgramFloor = true)
    (h3 : s.PC.toNat < 0x200) : checkFetch s = .error (.specFault (.fetchBelowProgramSpace s.PC)) := by
  rw [checkFetch, if_neg (by omega), if_pos ⟨h2, h3⟩]

/-- What the step engine can do on the state that holds its inputs: refuse before a load, check the keys in a wait,
fail a fetch check, or run the word at PC on the state with PC advanced (R122). -/
theorem stepSupplied_cases (s : State) :
    (s.loaded = false ∧ stepSupplied s = raise .notLoaded s) ∨
    (∃ x, s.loaded = true ∧ s.W = some x ∧ stepSupplied s = resumeWait x s) ∨
    (s.loaded = true ∧ s.W = none ∧ s.PC.toNat + 1 > 0xFFF ∧
      stepSupplied s = raise (.outOfBounds (.fetch s.PC)) s) ∨
    (s.loaded = true ∧ s.W = none ∧ s.PC.toNat + 1 ≤ 0xFFF ∧ s.cfg.enforceProgramFloor = true ∧
      s.PC.toNat < 0x200 ∧ stepSupplied s = raise (.specFault (.fetchBelowProgramSpace s.PC)) s) ∨
    (s.Fetches ∧ stepSupplied s = runWord s.wordAtPC s.advance) := by
  cases hl : s.loaded with
  | false => exact .inl ⟨rfl, by simp [stepSupplied, hl]⟩
  | true =>
    cases hw : s.W with
    | some x => exact .inr (.inl ⟨x, rfl, rfl, by simp [stepSupplied, hl, hw]⟩)
    | none =>
      have hs : stepSupplied s = runNext s := by simp [stepSupplied, hl, hw]
      by_cases h1 : s.PC.toNat + 1 > 0xFFF
      · exact .inr (.inr (.inl ⟨rfl, rfl, h1, by rw [hs, runNext, checkFetch_bound h1]; rfl⟩))
      · by_cases h2 : s.cfg.enforceProgramFloor = true ∧ s.PC.toNat < 0x200
        · exact .inr (.inr (.inr (.inl ⟨rfl, rfl, by omega, h2.1, h2.2,
            by rw [hs, runNext, checkFetch_floor (by omega) h2.1 h2.2]; rfl⟩)))
        · have h3 : s.cfg.enforceProgramFloor = true → 0x200 ≤ s.PC.toNat := fun h => by
            by_contra hc; exact h2 ⟨h, by omega⟩
          refine .inr (.inr (.inr (.inr ⟨⟨hl, hw, by omega, h3⟩, ?_⟩)))
          rw [hs, runNext, checkFetch_ok (by omega) h3, attempt_ok, fetchedWord_eq]

/-- Running a word is executing what it decodes to, or UnknownOpcodeError (R126). -/
theorem runWord_cases (w : Word) (s : State) :
    (∃ i, decodeWord w = some i ∧ runWord w s = exec i s) ∨
    (decodeWord w = none ∧ runWord w s = raise (.unknownOpcode w) s) := by
  cases h : decodeWord w with
  | some i => exact .inl ⟨i, rfl, by simp [runWord, h]⟩
  | none => exact .inr ⟨rfl, by simp [runWord, h]⟩

/-! ### The lowest pressed key (R124, R283) -/

theorem lowestKey_eq_some {K : Keys} {k : Reg} :
    lowestKey K = some k ↔ K[k] = true ∧ ∀ j : Fin 16, j < k → K[j] = false := by
  unfold lowestKey
  rw [List.find?_eq_some_iff_getElem]
  constructor
  · rintro ⟨hk, n, hn, he, hlt⟩
    refine ⟨hk, fun j hj => ?_⟩
    have hkn : k.val = n := by rw [← he]; simp
    have := hlt j.val (by omega)
    simpa using this
  · rintro ⟨hk, hlt⟩
    refine ⟨hk, k.val, by simp, by simp, fun j hj => ?_⟩
    have := hlt ⟨j, by omega⟩ (by simpa [Fin.lt_def] using hj)
    simpa using this

theorem lowestKey_eq_none {K : Keys} : lowestKey K = none ↔ ∀ k : Fin 16, K[k] = false := by
  simp [lowestKey, List.find?_eq_none]

/-! ### load (R351, R352) -/

theorem load_oversize {rom : List Byte} {s : State} (h : rom.length > 3584) :
    load rom s = { s with status := .fault (.capacity rom.length) } := by
  have : romFits rom = false := decide_eq_false (by simp only [romMax]; omega)
  simp [load, this]

theorem load_fits {rom : List Byte} {s : State} (h : rom.length ≤ 3584) :
    load rom s = { s with
      M := Memory.ofBytes (fontByte s.cfg) progBase rom, memDraw := s.memDraw + 1, V := Vector.replicate 16 0, I := 0,
      PC := 0x200, SP := 0, DT := 0, ST := 0, D := Display.blank, W := none, loaded := true, status := .ok } := by
  have : romFits rom = true := decide_eq_true (by simp only [romMax]; omega)
  simp [load, this]

theorem readByte_load_eq {rom : List Byte} {s : State} (h : rom.length ≤ 3584) (a : Nat) :
    (load rom s).readByte a = (match Memory.lookup (Memory.ofBytes (fontByte s.cfg) progBase rom) a with
      | some b => b
      | none => (fontByte s.cfg a).getD (Config.memoryDraw (s.memDraw + 1) a)) :=
  congrArg (State.readByte · a) (load_fits h)

/-- After a load the ROM stands verbatim from 0x200 on (R351). -/
theorem readByte_load_rom {rom : List Byte} {s : State} (h : rom.length ≤ 3584) (k : Nat) (hk : k < rom.length) :
    (load rom s).readByte (progBase + k) = rom[k] := by
  rw [readByte_load_eq h, Memory.lookup_ofBytes, dif_pos ⟨by omega, by omega⟩]
  simp only [Nat.add_sub_cancel_left]
  split
  · rename_i b he; split at he
    · cases he
    · simpa using he.symm
  · rename_i he; split at he
    · rename_i hf; rw [hf]; rfl
    · cases he

/-- After a load every other address reads as the font, else as the load's draw (R69, R73). -/
theorem readByte_load_other {rom : List Byte} {s : State} (h : rom.length ≤ 3584) (a : Nat)
    (ha : ¬ (progBase ≤ a ∧ a < progBase + rom.length)) :
    (load rom s).readByte a = (fontByte s.cfg a).getD (Config.memoryDraw (s.memDraw + 1) a) := by
  rw [readByte_load_eq h, Memory.lookup_ofBytes, dif_neg (by omega)]

end Sys2Proof.Machine
end

