-- ==== Sys2Proof/Laws/Exec.lean ====
section
/-! SUPPORT. Say once what an instruction can do: it takes an error on the state it ran in, or it completes with the one
effect listed here. Later proofs split on this and do not unfold `exec`. -/

namespace Sys2Proof.Machine

/-- The state in which the statements after the flag write of a flag writer run (R194). -/
abbrev withFlag (b : Byte) (s : State) : State := s.setV vf b

/-- The next state of an instruction that does not take an error. -/
def Completed (i : Instr) (s t : State) : Prop :=
  match i with
  | .cls => t = (s.setD Display.blank).output .ok true
  | .ret => ∃ h : 0 < s.SP.val,
      t = ((s.setStack s.S ⟨s.SP.val - 1, by omega⟩).setPC (s.S[s.SP.val - 1]'(by omega))).output .ok false
  | .jp nnn => t = (s.setPC (addressOf nnn)).output .ok false
  | .call nnn => ∃ h : s.SP.val < 16,
      t = ((s.setStack (s.S.set s.SP.val s.PC h) ⟨s.SP.val + 1, by omega⟩).setPC (addressOf nnn)).output .ok false
  | .seImm x kk => t = (if s.getV x = kk then s.setPC (s.PC + 2) else s).output .ok false
  | .sneImm x kk => t = (if s.getV x = kk then s else s.setPC (s.PC + 2)).output .ok false
  | .seReg x y => t = (if s.getV x = s.getV y then s.setPC (s.PC + 2) else s).output .ok false
  | .sneReg x y => t = (if s.getV x = s.getV y then s else s.setPC (s.PC + 2)).output .ok false
  | .ldImm x kk => t = (s.setV x kk).output .ok false
  | .addImm x kk => t = (s.setV x (s.getV x + kk)).output .ok false
  | .ldReg x y => t = (s.setV x (s.getV y)).output .ok false
  | .orReg x y => t = (s.setV x (s.getV x ||| s.getV y)).output .ok false
  | .andReg x y => t = (s.setV x (s.getV x &&& s.getV y)).output .ok false
  | .xorReg x y => t = (s.setV x (s.getV x ^^^ s.getV y)).output .ok false
  | .addReg x y =>
    t = ((withFlag (carryFlag (s.getV x) (s.getV y)) s).setV x (s.getV x + s.getV y)).output .ok false
  | .subReg x y => t = (subInto x y (withFlag (greaterFlag (s.getV x) (s.getV y)) s)).output .ok false
  | .shr x _ => t = (shiftRightInto x (withFlag (lowBitFlag (s.getV x)) s)).output .ok false
  | .subnReg x y => t = (subnInto x y (withFlag (greaterFlag (s.getV y) (s.getV x)) s)).output .ok false
  | .shl x _ => t = (shiftLeftInto x (withFlag (highBitFlag (s.getV x)) s)).output .ok false
  | .ldI nnn => t = (s.setI (addressOf nnn)).output .ok false
  | .jpV0 nnn => t = (s.setPC (offsetTarget nnn s)).output .ok false
  | .rnd x kk => t = (s.setV x (s.rand &&& kk)).output .ok false
  | .drw x y n =>
    t = (drawRows (s.getV x) (s.getV y) n.val 0 (withFlag (flag false) s)).1.output
          (drawStatus (drawRows (s.getV x) (s.getV y) n.val 0 (withFlag (flag false) s)).2) true
  | .skp x => ∃ h : (s.getV x).toNat ≤ 0xF,
      t = (if s.keys[(s.getV x).toNat]'(by omega) = true then s.setPC (s.PC + 2) else s).output .ok false
  | .sknp x => ∃ h : (s.getV x).toNat ≤ 0xF,
      t = (if s.keys[(s.getV x).toNat]'(by omega) = true then s else s.setPC (s.PC + 2)).output .ok false
  | .ldFromDT x => t = (s.setV x s.DT).output .ok false
  | .ldKey x =>
    (∃ k, lowestKey s.keys = some k ∧ t = (s.setV x (keyCode k)).output .ok false) ∨
    (lowestKey s.keys = none ∧ t = (s.setW (some x)).output .awaitingKey false)
  | .ldToDT x => t = (s.setDT (s.getV x)).output .ok false
  | .ldToST x => t = (s.setST (s.getV x)).output .ok false
  | .addI x => s.I.toNat + (s.getV x).toNat ≤ 0xFFF ∧
      t = (s.setI (BitVec.ofNat 16 (s.I.toNat + (s.getV x).toNat))).output .ok false
  | .ldFont x => t = (s.setI (glyphAddress s.cfg (s.getV x))).output .ok false
  | .ldBcd x => s.I.toNat + 2 ≤ 0xFFF ∧ t = (s.writeBytes s.I.toNat (bcdDigits (s.getV x))).output .ok false
  | .storeRegs x => s.I.toNat + x.val ≤ 0xFFF ∧ t = (s.writeBytes s.I.toNat (s.valuesUpTo x)).output .ok false
  | .loadRegs x => s.I.toNat + x.val ≤ 0xFFF ∧ t = (loadInto (regsUpTo x) s).output .ok false

/-- The errors an instruction raises in its own rule (60_exceptions.md R311): none of the step's own. -/
def OwnError : Fault → Prop
  | .outOfBounds (.indexAdd _) | .outOfBounds (.memRange _ _) | .stackOverflow _ | .stackUnderflow _ => True
  | .specFault (.fontWrite _) | .specFault (.keyIndexRange _) | .specFault (.vfAlias _) => True
  | _ => False

/-- An instruction took one of its own errors: nothing of it is kept (R127). -/
abbrev Failed (s t : State) : Prop := ∃ e, OwnError e ∧ t = s.output (.fault e) false

theorem next_inj {s t : State} (h : (Host.Outcome.next s : Result) = .next t) : t = s := by
  injection h with h; exact h.symm

theorem skipIf_eq (c : Bool) (s : State) :
    skipIf c s = .next ((if c = true then s.setPC (s.PC + 2) else s).output .ok false) := rfl

theorem checkVfAlias_own {cfg : Config} {b : Bool} {i : Instr} {e : Fault} (h : checkVfAlias cfg b i = .error e) :
    OwnError e := by
  unfold checkVfAlias at h; split at h <;> cases h; trivial

theorem checkKeyIndex_own {v : Byte} {e : Fault} (h : checkKeyIndex v = .error e) : OwnError e := by
  unfold checkKeyIndex at h; split at h <;> cases h; trivial

/-- What a store from I can do, as a completed or failed instruction (R226, R227). -/
theorem storeAtI_next {bs : List Byte} {s t : State} (h : storeAtI bs s = .next t) :
    Failed s t ∨ (s.I.toNat + bs.length - 1 ≤ 0xFFF ∧ t = (s.writeBytes s.I.toNat bs).output .ok false) := by
  rcases storeAtI_cases bs s with ⟨-, e⟩ | ⟨-, -, -, -, e⟩ | ⟨hr, -, e⟩ <;> rw [e] at h
  · exact .inl ⟨.outOfBounds (.memRange _ _), trivial, next_inj h⟩
  · exact .inl ⟨.specFault (.fontWrite _), trivial, next_inj h⟩
  · exact .inr ⟨hr, next_inj h⟩

/-- What a family-8 flag writer can do: fail the alias check or complete (R194). -/
theorem attempt_alias_next {cfg : Config} {b : Bool} {i : Instr} {s t u : State}
    (h : attempt (checkVfAlias cfg b i) s (fun _ => complete u) = .next t) :
    Failed s t ∨ t = u.output .ok false := by
  rcases attempt_cases h with ⟨e, he, h⟩ | ⟨-, -, h⟩
  · exact .inl ⟨e, checkVfAlias_own he, next_inj h.symm⟩
  · exact .inr (next_inj h.symm)

/-- What a key skip can do: fail the index check or skip on the key named (R280, R281, R286). -/
theorem attempt_key_next {v : Byte} {s t : State} {c : Reg → Bool}
    (h : attempt (checkKeyIndex v) s (fun k => skipIf (c k) s) = .next t) :
    Failed s t ∨ ∃ h : v.toNat ≤ 0xF,
      t = (if c ⟨v.toNat, by omega⟩ = true then s.setPC (s.PC + 2) else s).output .ok false := by
  rcases attempt_cases h with ⟨e, he, h⟩ | ⟨k, hk, h⟩
  · exact .inl ⟨e, checkKeyIndex_own he, next_inj h.symm⟩
  · by_cases hv : v.toNat ≤ 0xF
    · rw [checkKeyIndex_ok hv] at hk
      cases hk
      exact .inr ⟨hv, next_inj h.symm⟩
    · rw [checkKeyIndex_error hv] at hk; cases hk

/-- THE INVERSION OF `exec`: an instruction that answers a next state took one of its own errors, or completed. -/
theorem exec_cases {i : Instr} {s t : State} (h : exec i s = .next t) : Failed s t ∨ Completed i s t := by
  cases i with
  | ret =>
    by_cases hp : 0 < s.SP.val
    · simp only [exec, execRet, State.pop_ok hp, attempt_ok, complete_eq] at h
      exact .inr ⟨hp, next_inj h⟩
    · simp only [exec, execRet, State.pop_empty hp, attempt_error] at h
      exact .inl ⟨.stackUnderflow _, trivial, next_inj h⟩
  | call nnn =>
    by_cases hp : s.SP.val < 16
    · simp only [exec, execCall, State.push_ok _ hp, attempt_ok, complete_eq] at h
      exact .inr ⟨hp, next_inj h⟩
    · simp only [exec, execCall, State.push_full _ hp, attempt_error] at h
      exact .inl ⟨.stackOverflow _, trivial, next_inj h⟩
  | seImm x kk => rw [exec, execSeImm, skipIf_eq] at h; exact .inr (by simpa [Completed] using next_inj h)
  | seReg x y => rw [exec, execSeReg, skipIf_eq] at h; exact .inr (by simpa [Completed] using next_inj h)
  | sneImm x kk =>
    rw [exec, execSneImm, skipIf_eq] at h
    refine .inr ((next_inj h).trans ?_)
    by_cases e : s.getV x = kk <;> simp [e]
  | sneReg x y =>
    rw [exec, execSneReg, skipIf_eq] at h
    refine .inr ((next_inj h).trans ?_)
    by_cases e : s.getV x = s.getV y <;> simp [e]
  | addReg x y => exact attempt_alias_next h
  | subReg x y => exact attempt_alias_next h
  | shr x y => exact attempt_alias_next h
  | subnReg x y => exact attempt_alias_next h
  | shl x y => exact attempt_alias_next h
  | skp x => exact attempt_key_next h
  | sknp x =>
    rcases attempt_key_next h with hf | ⟨hv, ht⟩
    · exact .inl hf
    · refine .inr ⟨hv, ht.trans ?_⟩
      simp only [Fin.getElem_fin]
      cases s.keys[(s.getV x).toNat]'(by omega) <;> simp
  | ldKey x =>
    rw [exec, execLdKey] at h
    split at h
    · rename_i k hk; exact .inr (.inl ⟨k, hk, next_inj h⟩)
    · rename_i hk; exact .inr (.inr ⟨hk, next_inj h⟩)
  | addI x =>
    rw [exec, execAddI] at h
    split at h
    · exact .inl ⟨.outOfBounds (.indexAdd _), trivial, next_inj h⟩
    · exact .inr ⟨by omega, next_inj h⟩
  | ldBcd x => exact (storeAtI_next h).imp id fun ⟨hr, ht⟩ => ⟨hr, ht⟩
  | storeRegs x =>
    refine (storeAtI_next h).imp id fun ⟨hr, ht⟩ => ⟨?_, ht⟩
    rw [length_valuesUpTo] at hr; omega
  | loadRegs x =>
    by_cases hr : s.I.toNat + (x.val + 1) - 1 ≤ 0xFFF
    · simp only [exec, execLoadRegs, checkRange_ok hr, attempt_ok, complete_eq] at h
      exact .inr ⟨by omega, next_inj h⟩
    · simp only [exec, execLoadRegs, checkRange_error (Nat.lt_of_not_le hr), attempt_error] at h
      exact .inl ⟨.outOfBounds (.memRange _ _), trivial, next_inj h⟩
  | cls | jp | ldImm | addImm | ldReg | orReg | andReg | xorReg | ldI | jpV0 | rnd | drw | ldFromDT | ldToDT | ldToST
  | ldFont => exact .inr (next_inj h)

end Sys2Proof.Machine
end

