-- ==== Sys2Proof/Laws/PerInstr.lean ====
section
/-! SUPPORT. A statement about every instruction, one lemma per constructor: the word of an instruction matches a
pattern of the opcode map, which is written apart from the encoder (30_encoding.md R92, R94, R97). -/

namespace Sys2Proof.Laws.EncodedWordLegal

/-- The word of the instruction is legal. -/
def Statement (i : Instr) : Prop := legalWord (encode i) = true

theorem of_row {w : Word} (p : Pattern) (hp : p ∈ opcodeRows) (h : w &&& p.mask = p.pattern) : legalWord w = true :=
  List.any_eq_true.mpr ⟨p, hp, by simpa [Pattern.selects] using h⟩

theorem and_zero_both {k : Nat} (a b : BitVec k) : a &&& 0#k = b &&& 0#k := BitVec.and_zero.trans BitVec.and_zero.symm

/-- A word whose n1 is the pattern's matches a pattern that fixes n1 alone. -/
theorem matches_n1 {w p : Word} (h : n1 w = n1 p) (hp : p = p &&& 0xF000#16) : w &&& 0xF000#16 = p := by
  rw [hp, ← formXKK_fields (w &&& _), ← formXKK_fields (p &&& _)]
  simp only [n1, fieldX, fieldKK, BitVec.extractLsb'_and] at h ⊢
  rw [h]
  exact congrArg₂ (formXKK _) (congrArg BitVec.toFin (and_zero_both _ _)) (and_zero_both _ _)

/-- A word whose n1 and n4 are the pattern's matches a pattern that fixes those two. -/
theorem matches_n1_n4 {w p : Word} (h : n1 w = n1 p) (h4 : n4 w = n4 p) (hp : p = p &&& 0xF00F#16) :
    w &&& 0xF00F#16 = p := by
  rw [hp, ← formXYN_fields (w &&& _), ← formXYN_fields (p &&& _)]
  simp only [n1, n4, fieldX, fieldY, BitVec.extractLsb'_and] at h h4 ⊢
  rw [h, h4]
  congr 2 <;> exact and_zero_both _ _

/-- A word whose n1 and kk are the pattern's matches a pattern that fixes those two. -/
theorem matches_n1_kk {w p : Word} (h : n1 w = n1 p) (hk : fieldKK w = fieldKK p) (hp : p = p &&& 0xF0FF#16) :
    w &&& 0xF0FF#16 = p := by
  rw [hp, ← formXKK_fields (w &&& _), ← formXKK_fields (p &&& _)]
  simp only [n1, fieldX, fieldKK, BitVec.extractLsb'_and] at h hk ⊢
  rw [h, hk]
  congr 2; exact and_zero_both _ _

theorem cls : Statement .cls := by unfold Statement; decide
theorem ret : Statement .ret := by unfold Statement; decide
theorem jp (nnn : BitVec 12) : Statement (.jp nnn) :=
  of_row ⟨"1nnn", 0x1000#16, 0xF000#16⟩ (by decide) (matches_n1 (n1_formNNN ..) rfl)
theorem call (nnn : BitVec 12) : Statement (.call nnn) :=
  of_row ⟨"2nnn", 0x2000#16, 0xF000#16⟩ (by decide) (matches_n1 (n1_formNNN ..) rfl)
theorem seImm (x : Reg) (kk : Byte) : Statement (.seImm x kk) :=
  of_row ⟨"3xkk", 0x3000#16, 0xF000#16⟩ (by decide) (matches_n1 (n1_formXKK ..) rfl)
theorem sneImm (x : Reg) (kk : Byte) : Statement (.sneImm x kk) :=
  of_row ⟨"4xkk", 0x4000#16, 0xF000#16⟩ (by decide) (matches_n1 (n1_formXKK ..) rfl)
theorem seReg (x y : Reg) : Statement (.seReg x y) :=
  of_row ⟨"5xy0", 0x5000#16, 0xF00F#16⟩ (by decide) (matches_n1_n4 (n1_formXYN ..) (n4_formXYN ..) rfl)
theorem ldImm (x : Reg) (kk : Byte) : Statement (.ldImm x kk) :=
  of_row ⟨"6xkk", 0x6000#16, 0xF000#16⟩ (by decide) (matches_n1 (n1_formXKK ..) rfl)
theorem addImm (x : Reg) (kk : Byte) : Statement (.addImm x kk) :=
  of_row ⟨"7xkk", 0x7000#16, 0xF000#16⟩ (by decide) (matches_n1 (n1_formXKK ..) rfl)
theorem ldReg (x y : Reg) : Statement (.ldReg x y) :=
  of_row ⟨"8xy0", 0x8000#16, 0xF00F#16⟩ (by decide) (matches_n1_n4 (n1_formXYN ..) (n4_formXYN ..) rfl)
theorem orReg (x y : Reg) : Statement (.orReg x y) :=
  of_row ⟨"8xy1", 0x8001#16, 0xF00F#16⟩ (by decide) (matches_n1_n4 (n1_formXYN ..) (n4_formXYN ..) rfl)
theorem andReg (x y : Reg) : Statement (.andReg x y) :=
  of_row ⟨"8xy2", 0x8002#16, 0xF00F#16⟩ (by decide) (matches_n1_n4 (n1_formXYN ..) (n4_formXYN ..) rfl)
theorem xorReg (x y : Reg) : Statement (.xorReg x y) :=
  of_row ⟨"8xy3", 0x8003#16, 0xF00F#16⟩ (by decide) (matches_n1_n4 (n1_formXYN ..) (n4_formXYN ..) rfl)
theorem addReg (x y : Reg) : Statement (.addReg x y) :=
  of_row ⟨"8xy4", 0x8004#16, 0xF00F#16⟩ (by decide) (matches_n1_n4 (n1_formXYN ..) (n4_formXYN ..) rfl)
theorem subReg (x y : Reg) : Statement (.subReg x y) :=
  of_row ⟨"8xy5", 0x8005#16, 0xF00F#16⟩ (by decide) (matches_n1_n4 (n1_formXYN ..) (n4_formXYN ..) rfl)
theorem shr (x y : Reg) : Statement (.shr x y) :=
  of_row ⟨"8xy6", 0x8006#16, 0xF00F#16⟩ (by decide) (matches_n1_n4 (n1_formXYN ..) (n4_formXYN ..) rfl)
theorem subnReg (x y : Reg) : Statement (.subnReg x y) :=
  of_row ⟨"8xy7", 0x8007#16, 0xF00F#16⟩ (by decide) (matches_n1_n4 (n1_formXYN ..) (n4_formXYN ..) rfl)
theorem shl (x y : Reg) : Statement (.shl x y) :=
  of_row ⟨"8xyE", 0x800E#16, 0xF00F#16⟩ (by decide) (matches_n1_n4 (n1_formXYN ..) (n4_formXYN ..) rfl)
theorem sneReg (x y : Reg) : Statement (.sneReg x y) :=
  of_row ⟨"9xy0", 0x9000#16, 0xF00F#16⟩ (by decide) (matches_n1_n4 (n1_formXYN ..) (n4_formXYN ..) rfl)
theorem ldI (nnn : BitVec 12) : Statement (.ldI nnn) :=
  of_row ⟨"Annn", 0xA000#16, 0xF000#16⟩ (by decide) (matches_n1 (n1_formNNN ..) rfl)
theorem jpV0 (nnn : BitVec 12) : Statement (.jpV0 nnn) :=
  of_row ⟨"Bnnn", 0xB000#16, 0xF000#16⟩ (by decide) (matches_n1 (n1_formNNN ..) rfl)
theorem rnd (x : Reg) (kk : Byte) : Statement (.rnd x kk) :=
  of_row ⟨"Cxkk", 0xC000#16, 0xF000#16⟩ (by decide) (matches_n1 (n1_formXKK ..) rfl)
theorem drw (x y : Reg) (n : Fin 16) : Statement (.drw x y n) :=
  of_row ⟨"Dxyn", 0xD000#16, 0xF000#16⟩ (by decide) (matches_n1 (n1_formXYN ..) rfl)
theorem skp (x : Reg) : Statement (.skp x) :=
  of_row ⟨"Ex9E", 0xE09E#16, 0xF0FF#16⟩ (by decide) (matches_n1_kk (n1_formXKK ..) (fieldKK_formXKK ..) rfl)
theorem sknp (x : Reg) : Statement (.sknp x) :=
  of_row ⟨"ExA1", 0xE0A1#16, 0xF0FF#16⟩ (by decide) (matches_n1_kk (n1_formXKK ..) (fieldKK_formXKK ..) rfl)
theorem ldFromDT (x : Reg) : Statement (.ldFromDT x) :=
  of_row ⟨"Fx07", 0xF007#16, 0xF0FF#16⟩ (by decide) (matches_n1_kk (n1_formXKK ..) (fieldKK_formXKK ..) rfl)
theorem ldKey (x : Reg) : Statement (.ldKey x) :=
  of_row ⟨"Fx0A", 0xF00A#16, 0xF0FF#16⟩ (by decide) (matches_n1_kk (n1_formXKK ..) (fieldKK_formXKK ..) rfl)
theorem ldToDT (x : Reg) : Statement (.ldToDT x) :=
  of_row ⟨"Fx15", 0xF015#16, 0xF0FF#16⟩ (by decide) (matches_n1_kk (n1_formXKK ..) (fieldKK_formXKK ..) rfl)
theorem ldToST (x : Reg) : Statement (.ldToST x) :=
  of_row ⟨"Fx18", 0xF018#16, 0xF0FF#16⟩ (by decide) (matches_n1_kk (n1_formXKK ..) (fieldKK_formXKK ..) rfl)
theorem addI (x : Reg) : Statement (.addI x) :=
  of_row ⟨"Fx1E", 0xF01E#16, 0xF0FF#16⟩ (by decide) (matches_n1_kk (n1_formXKK ..) (fieldKK_formXKK ..) rfl)
theorem ldFont (x : Reg) : Statement (.ldFont x) :=
  of_row ⟨"Fx29", 0xF029#16, 0xF0FF#16⟩ (by decide) (matches_n1_kk (n1_formXKK ..) (fieldKK_formXKK ..) rfl)
theorem ldBcd (x : Reg) : Statement (.ldBcd x) :=
  of_row ⟨"Fx33", 0xF033#16, 0xF0FF#16⟩ (by decide) (matches_n1_kk (n1_formXKK ..) (fieldKK_formXKK ..) rfl)
theorem storeRegs (x : Reg) : Statement (.storeRegs x) :=
  of_row ⟨"Fx55", 0xF055#16, 0xF0FF#16⟩ (by decide) (matches_n1_kk (n1_formXKK ..) (fieldKK_formXKK ..) rfl)
theorem loadRegs (x : Reg) : Statement (.loadRegs x) :=
  of_row ⟨"Fx65", 0xF065#16, 0xF0FF#16⟩ (by decide) (matches_n1_kk (n1_formXKK ..) (fieldKK_formXKK ..) rfl)

end Sys2Proof.Laws.EncodedWordLegal
end

