-- ==== Sys2Proof/Tests/Slice0.lean ====
section
/-! SUPPORT. The model's own tests. The words of the decode tests are written out from the patterns of
30_encoding.md R92, R95, R96; the expected results of the step tests are the vectors of 95_test_vectors.md named in
each comment; the witnesses meet the hypotheses of the statements in Certificates/Slice0/Obligations.lean. -/

namespace Sys2Proof.Tests

open Sys2Proof.Machine

/-! ### Well-formedness: what the checks refuse -/

theorem test_words_of_no_pattern_are_refused :
    [0x0123, 0x01E0, 0x00E1, 0x5121, 0x8128, 0x812F, 0x9121, 0xE1A2, 0xF1FF].map legalWord =
      [false, false, false, false, false, false, false, false, false] := by decide

theorem test_words_of_no_pattern_do_not_decode :
    [0x0123, 0x01E0, 0x00E1, 0x5121, 0x8128, 0x812F, 0x9121, 0xE1A2, 0xF1FF].map decodeWord =
      [none, none, none, none, none, none, none, none, none] := by decide

theorem test_legal_word_is_accepted : legalWord 0x8124 = true := by decide

theorem test_oversize_rom_is_refused : romFits (List.replicate 3585 0) = false := by
  rw [romFits, List.length_replicate]; decide

theorem test_full_rom_is_accepted : romFits (List.replicate 3584 0) = true := by
  rw [romFits, List.length_replicate]; decide

theorem test_half_a_word_is_truncated : decodeBytes [0x60] = .error .truncated := by rfl

/-! ### Decode: one word per constructor -/

theorem test_decode_families_0_to_3 :
    [0x00E0, 0x00EE, 0x1234, 0x2300, 0x3210].map decodeWord =
      [some .cls, some .ret, some (.jp 0x234), some (.call 0x300), some (.seImm 2 0x10)] := by decide

theorem test_decode_families_4_to_7 :
    [0x4211, 0x5120, 0x6A42, 0x7320].map decodeWord =
      [some (.sneImm 2 0x11), some (.seReg 1 2), some (.ldImm 0xA 0x42), some (.addImm 3 0x20)] := by decide

theorem test_decode_family_8 :
    [0x8010, 0x8121, 0x8232, 0x8343, 0x83A4, 0x8565, 0x8676, 0x8787, 0x89AE].map decodeWord =
      [some (.ldReg 0 1), some (.orReg 1 2), some (.andReg 2 3), some (.xorReg 3 4), some (.addReg 3 0xA),
       some (.subReg 5 6), some (.shr 6 7), some (.subnReg 7 8), some (.shl 9 0xA)] := by decide

theorem test_decode_families_9_to_D :
    [0x9120, 0xA2F0, 0xB301, 0xC30F, 0xD015].map decodeWord =
      [some (.sneReg 1 2), some (.ldI 0x2F0), some (.jpV0 0x301), some (.rnd 3 0x0F), some (.drw 0 1 5)] := by decide

theorem test_decode_family_E : [0xE59E, 0xE5A1].map decodeWord = [some (.skp 5), some (.sknp 5)] := by decide

theorem test_decode_family_F :
    [0xF307, 0xF20A, 0xF115, 0xF118, 0xF21E, 0xF029, 0xF233, 0xFF55, 0xF165].map decodeWord =
      [some (.ldFromDT 3), some (.ldKey 2), some (.ldToDT 1), some (.ldToST 1), some (.addI 2), some (.ldFont 0),
       some (.ldBcd 2), some (.storeRegs 0xF), some (.loadRegs 1)] := by decide

/-- The bytes of a word in memory, high byte first (R63). -/
theorem test_decode_bytes : decodeBytes [0x83, 0xA4, 0x00] = .ok (.addReg 3 0xA, [0x00]) := by rfl

theorem test_decode_table_word : decodeTableWord 16 0xF165 = some (.loadRegs 1) := by decide

/-! ### One step on a small state

The state before each vector is the state after a load of an empty ROM with the changes the vector lists. -/

/-- The key vector with the listed keys pressed. -/
def keysOf (ks : List Nat) : Keys := Vector.ofFn fun k => decide (k.val ∈ ks)

/-- The state with the listed register values. -/
def withV (vs : List (Reg × Byte)) (s : State) : State := vs.foldl (fun s p => s.setV p.1 p.2) s

/-- The reset state with the word at PC and the inputs of one step lined up. -/
def ready (w : Nat) (s : State := State.reset) (ks : List Nat := []) (r : Byte := 0) : State :=
  { s with pending := [.step (keysOf ks) r] }.withFetchWord 16 w

/-- What a test looks at, of the next state. -/
def after {α : Type} (s : State) (look : State → α) : Option α :=
  match step s with
  | .next t => some (look t)
  | _ => none

/-- PC and the status. -/
def pcStatus (s : State) : Word × Status := (s.PC, s.status)

-- ENG-2, ENG-3, ENG-5, ENG-6, ENG-8
theorem test_fetch_at_last_word : after (ready 0x1200 (State.reset.setPC 0xFFE)) pcStatus = some (0x200, .ok) := by
  decide
theorem test_fetch_at_last_byte : after (State.reset.setPC 0xFFF) pcStatus =
    some (0xFFF, .fault (.outOfBounds (.fetch 0xFFF))) := by decide
theorem test_fetch_below_floor : after (State.reset.setPC 0x1FE) pcStatus =
    some (0x1FE, .fault (.specFault (.fetchBelowProgramSpace 0x1FE))) := by decide
theorem test_fetch_below_floor_allowed :
    after (ready 0x6005 { State.reset with PC := 0x1FE, cfg := { Config.default with enforceProgramFloor := false } })
      (fun t => (t.getV 0, t.PC)) = some (5, 0x200) := by decide
theorem test_unknown_word_keeps_the_advance :
    after (State.reset.writeBytes 0x200 [0x01, 0x23]) pcStatus = some (0x202, .fault (.unknownOpcode 0x0123)) := by
  decide

-- LD-1, LD-5
theorem test_oversize_load : after { State.reset with pending := [.load (List.replicate 3585 0)] } (·.status) =
    some (.fault (.capacity 3585)) := by
  have h : (List.replicate 3585 (0 : Byte)).length > 3584 := by rw [List.length_replicate]; decide
  simp only [after, step, serve, load_oversize h, List.length_replicate]
theorem test_load_resets :
    after { withV [(2, 5)] State.reset with W := some 2, DT := 7, SP := 1, pending := [.load [0x12, 0x00]] }
      (fun t => (t.getV 2, t.DT, t.SP, t.W, t.readByte 0x200, t.readByte 0x201)) =
      some (0, 0, 0, none, 0x12, 0x00) := by decide

-- TM-1, TM-4
theorem test_tick : after { State.reset with DT := 2, pending := [.tickTimers] } (fun t => (t.DT, t.ST)) =
    some (1, 0) := by decide
theorem test_tick_at_top : after { State.reset with DT := 255, ST := 255, pending := [.tickTimers] }
    (fun t => (t.DT, t.ST)) = some (254, 254) := by decide

-- FLW-1, FLW-2
theorem test_ret : after (ready 0x00EE { State.reset with PC := 0x300, SP := 1, S := State.reset.S.set 0 0x206 })
    (fun t => (t.PC, t.SP)) = some (0x206, 0) := by decide
theorem test_ret_underflow : after (ready 0x00EE (State.reset.setPC 0x300)) pcStatus =
    some (0x302, .fault (.stackUnderflow 0)) := by decide

-- FLW-4
theorem test_jp : after (ready 0x1234) pcStatus = some (0x234, .ok) := by decide

-- FLW-7, FLW-6
theorem test_call_at_top : after (ready 0x2200 (State.reset.setPC 0xFFE)) (fun t => (t.PC, t.SP, t.S[0])) =
    some (0x200, 1, 0x1000) := by decide
theorem test_call_overflow : after (ready 0x2300 { State.reset with SP := 16 }) pcStatus =
    some (0x202, .fault (.stackOverflow 16)) := by decide

-- FLW-8, FLW-9
theorem test_se_imm_skips : after (ready 0x3210 (withV [(2, 0x10)] State.reset)) pcStatus = some (0x204, .ok) := by
  decide
theorem test_se_imm_stays : after (ready 0x3211 (withV [(2, 0x10)] State.reset)) pcStatus = some (0x202, .ok) := by
  decide

-- FLW-10, FLW-11
theorem test_sne_imm_stays : after (ready 0x4210 (withV [(2, 0x10)] State.reset)) pcStatus = some (0x202, .ok) := by
  decide
theorem test_sne_imm_skips : after (ready 0x4211 (withV [(2, 0x10)] State.reset)) pcStatus = some (0x204, .ok) := by
  decide

-- FLW-12, FLW-14
theorem test_se_reg_skips : after (ready 0x5120 (withV [(1, 7), (2, 7)] State.reset)) pcStatus =
    some (0x204, .ok) := by decide
theorem test_se_reg_stays : after (ready 0x5120 (withV [(1, 7), (2, 8)] State.reset)) pcStatus =
    some (0x202, .ok) := by decide

-- FLW-15, FLW-16
theorem test_sne_reg_skips : after (ready 0x9120 (withV [(1, 7), (2, 8)] State.reset)) pcStatus =
    some (0x204, .ok) := by decide
theorem test_sne_reg_same : after (ready 0x9110 (withV [(1, 3)] State.reset)) pcStatus = some (0x202, .ok) := by decide

-- FLW-18, FLW-19
theorem test_jp_v0_is_not_wrapped : after (ready 0xBFF0 (withV [(0, 0x20)] State.reset)) pcStatus =
    some (0x1010, .ok) := by decide
theorem test_jp_v0_ignores_x : after (ready 0xB301 (withV [(1, 0x50)] State.reset)) pcStatus =
    some (0x301, .ok) := by decide

-- ALU-1
theorem test_ld_imm : after (ready 0x6A42) (·.getV 0xA) = some 0x42 := by decide

-- ALU-2, ALU-3
theorem test_add_imm_leaves_vf : after (ready 0x7320 (withV [(3, 0xF0), (0xF, 0x55)] State.reset))
    (fun t => (t.getV 3, t.getV 0xF)) = some (0x10, 0x55) := by decide
theorem test_add_imm_wraps : after (ready 0x7301 (withV [(3, 0xFF)] State.reset)) (·.getV 3) = some 0 := by decide

-- ALU-4, ALU-5, ALU-6, ALU-7
theorem test_ld_reg : after (ready 0x8010 (withV [(1, 0x33)] State.reset)) (·.getV 0) = some 0x33 := by decide
theorem test_or : after (ready 0x8011 (withV [(0, 0xF0), (1, 0x0F), (0xF, 0x55)] State.reset))
    (fun t => (t.getV 0, t.getV 0xF)) = some (0xFF, 0x55) := by decide
theorem test_and : after (ready 0x8012 (withV [(0, 0xF3), (1, 0x3F), (0xF, 0x55)] State.reset))
    (fun t => (t.getV 0, t.getV 0xF)) = some (0x33, 0x55) := by decide
theorem test_xor_self : after (ready 0x8003 (withV [(0, 0xA5), (0xF, 0x55)] State.reset))
    (fun t => (t.getV 0, t.getV 0xF)) = some (0x00, 0x55) := by decide

-- ALU-8, VF-1
theorem test_add_carries : after (ready 0x8014 (withV [(0, 0xFF), (1, 1)] State.reset))
    (fun t => (t.getV 0, t.getV 0xF)) = some (0, 1) := by decide
theorem test_add_into_vf : after (ready 0x8F14 (withV [(1, 1), (0xF, 0xFF)] State.reset)) (·.getV 0xF) = some 0 := by
  decide

-- ALU-13, VF-5
theorem test_sub_equal_clears_vf : after (ready 0x8015 (withV [(0, 7), (1, 7), (0xF, 1)] State.reset))
    (fun t => (t.getV 0, t.getV 0xF)) = some (0, 0) := by decide
theorem test_sub_of_vf : after (ready 0x81F5 (withV [(1, 5), (0xF, 3)] State.reset))
    (fun t => (t.getV 1, t.getV 0xF)) = some (4, 1) := by decide

-- ALU-15, VF-14
theorem test_shr_ignores_y : after (ready 0x8026 (withV [(0, 2), (2, 0xFF), (0xF, 1)] State.reset))
    (fun t => (t.getV 0, t.getV 0xF)) = some (1, 0) := by decide
theorem test_shr_y_is_no_alias :
    after (ready 0x81F6 (withV [(1, 3)] { State.reset with cfg := { Config.default with vfAliasMode := .fault } }))
      (fun t => (t.getV 1, t.getV 0xF, t.status)) = some (1, 1, .ok) := by decide

-- ALU-16, VF-10
theorem test_subn : after (ready 0x8017 (withV [(0, 1), (1, 3)] State.reset))
    (fun t => (t.getV 0, t.getV 0xF)) = some (2, 1) := by decide
theorem test_subn_of_vf : after (ready 0x81F7 (withV [(1, 3), (0xF, 5)] State.reset))
    (fun t => (t.getV 1, t.getV 0xF)) = some (0xFE, 1) := by decide

-- ALU-19, VF-11
theorem test_shl : after (ready 0x801E (withV [(0, 0x7F), (0xF, 1)] State.reset))
    (fun t => (t.getV 0, t.getV 0xF)) = some (0xFE, 0) := by decide
theorem test_shl_vf : after (ready 0x8F0E (withV [(0xF, 0x81)] State.reset)) (·.getV 0xF) = some 2 := by decide

-- VF-13
theorem test_vf_alias_faults :
    after (ready 0x8F14 (withV [(1, 1), (0xF, 0xFF)] { State.reset with
      cfg := { Config.default with vfAliasMode := .fault } })) pcStatus =
      some (0x202, .fault (.specFault (.vfAlias 0x8F14))) := by decide

-- ALU-21
theorem test_rnd : after (ready 0xC30F (r := 0xA7)) (·.getV 3) = some 7 := by decide

-- MEM-1
theorem test_ld_i : after (ready 0xA123) (·.I) = some 0x123 := by decide

-- MEM-3, MEM-4
theorem test_add_i_at_top : after (ready 0xF01E (State.reset.setI 0xFFF)) (fun t => (t.I, t.status)) =
    some (0xFFF, .ok) := by decide
theorem test_add_i_past_top : after (ready 0xF21E (withV [(2, 1)] (State.reset.setI 0xFFF))) (fun t => (t.I, t.status)) =
    some (0xFFF, .fault (.outOfBounds (.indexAdd 0x1000))) := by decide

-- MEM-7
theorem test_ld_font_low_nibble : after (ready 0xF029 (withV [(0, 0x1A)] State.reset)) (·.I) = some 0x082 := by decide

-- MEM-8, MEM-12
theorem test_bcd : after (ready 0xF233 (withV [(2, 0x9D)] (State.reset.setI 0x300)))
    (fun t => (t.readByte 0x300, t.readByte 0x301, t.readByte 0x302)) = some (1, 5, 7) := by decide
theorem test_bcd_into_font : after (ready 0xF233 (withV [(2, 0x9D)] (State.reset.setI 0x09E)))
    (fun t => (t.readByte 0x09E, t.status)) = some (0x80, .fault (.specFault (.fontWrite 0x09E))) := by decide

-- MEM-18, MEM-19
theorem test_store_to_top : after (ready 0xFF55 (withV [(0, 1), (0xF, 0x10)] (State.reset.setI 0xFF0)))
    (fun t => (t.readByte 0xFF0, t.readByte 0xFFF, t.I)) = some (1, 0x10, 0xFF0) := by decide
theorem test_store_past_top : after (ready 0xFF55 (State.reset.setI 0xFF1)) pcStatus =
    some (0x202, .fault (.outOfBounds (.memRange 0xFF1 16))) := by decide

-- MEM-21, MEM-24
theorem test_load_regs : after (ready 0xF165 (State.writeBytes 0x300 [0xAB, 0xCD] (State.reset.setI 0x300)))
    (fun t => (t.getV 0, t.getV 1, t.getV 2)) = some (0xAB, 0xCD, 0) := by decide
theorem test_load_regs_from_font : after (ready 0xF465 (State.reset.setI 0x050))
    (fun t => (t.getV 0, t.getV 1, t.getV 4)) = some (0xF0, 0x90, 0xF0) := by decide

-- DSP-1
theorem test_cls : after (ready 0x00E0 (State.reset.togglePixel 63 31))
    (fun t => (t.pixel 63 31, t.redraw)) = some (false, true) := by decide

-- DSP-5 (columns 60 to 63 wrap to 0 to 3), DSP-9
theorem test_draw_wraps :
    after (ready 0xD011 (State.writeBytes 0x300 [0xFF] (withV [(0, 0x3C)] (State.reset.setI 0x300))))
      (fun t => ([60, 63, 0, 3, 4, 59].map (t.pixel · 0), t.getV 0xF)) =
      some ([true, true, true, true, false, false], 0) := by decide
theorem test_draw_past_top :
    after (ready 0xD013 (State.writeBytes 0xFFE [0x80, 0x80] ((State.reset.setI 0xFFE).togglePixel 0 1)))
      (fun t => (t.pixel 0 0, t.pixel 0 1, t.getV 0xF, t.status, t.redraw)) =
      some (true, false, 1, .nonFatal (.outOfBounds (.sprite 0x1000)), true) := by decide

-- KEY-1, KEY-5
theorem test_skp : after (ready 0xE59E (withV [(5, 4)] State.reset) [4]) pcStatus = some (0x204, .ok) := by decide
theorem test_skp_key_out_of_range : after (ready 0xE59E (withV [(5, 0x10)] State.reset) [0]) pcStatus =
    some (0x202, .fault (.specFault (.keyIndexRange 0x10))) := by decide

-- KEY-3, KEY-4
theorem test_sknp_skips : after (ready 0xE5A1 (withV [(5, 4)] State.reset)) pcStatus = some (0x204, .ok) := by decide
theorem test_sknp_stays : after (ready 0xE5A1 (withV [(5, 4)] State.reset) [4]) pcStatus = some (0x202, .ok) := by
  decide

-- KEY-7, KEY-8, KEY-9
theorem test_ld_from_dt : after (ready 0xF307 { State.reset with DT := 60 }) (·.getV 3) = some 0x3C := by decide
theorem test_ld_to_dt : after (ready 0xF115 (withV [(1, 0x3C)] State.reset)) (fun t => (t.DT, t.ST)) =
    some (60, 0) := by decide
theorem test_ld_to_st : after (ready 0xF118 (withV [(1, 5)] State.reset)) (fun t => (t.DT, t.ST)) =
    some (0, 5) := by decide

-- KEY-11, KEY-12, KEY-14
theorem test_key_lowest : after (ready 0xF20A (ks := [9, 3, 0xC])) (fun t => (t.getV 2, t.W)) = some (3, none) := by
  decide
theorem test_key_waits : after (ready 0xF20A) (fun t => (t.PC, t.W, t.status)) =
    some (0x202, some 2, .awaitingKey) := by decide
theorem test_wait_ends : after { State.reset with PC := 0x202, W := some 2, pending := [.step (keysOf [7]) 0] }
    (fun t => (t.getV 2, t.W, t.PC)) = some (7, none, 0x202) := by decide

/-! ### Witnesses: states and operands that meet the hypotheses of the statements -/

/-- An unloaded machine. -/
abbrev unloaded : State := { State.reset with loaded := false }

/-- A machine that waits for a key for V[2]. -/
abbrev waiting : State := { State.reset with PC := 0x202, W := some 2 }

/-- A machine in the alias fault mode. -/
abbrev aliasFaults : State := { State.reset with cfg := { Config.default with vfAliasMode := .fault } }

theorem witness_EncodeOfDecodeIsTheWord : ∃ w i, decodeWord w = some i := ⟨0xFF65, .loadRegs 0xF, by decide⟩

theorem witness_NoWordMatchesTwoPatterns : ∃ (w : Word) (p q : Pattern),
    p ∈ opcodeRows ∧ q ∈ opcodeRows ∧ p.selects w = true ∧ q.selects w = true :=
  ⟨0x812E, ⟨"8xyE", 0x800E#16, 0xF00F#16⟩, ⟨"8xyE", 0x800E#16, 0xF00F#16⟩, by decide⟩

theorem witness_StepRunsTheDecodedInstruction : ∃ s s1 i,
    State.Accepts s s1 ∧ s.Fetches ∧ decodeWord s.wordAtPC = some i :=
  ⟨ready 0x6A42, _, .ldImm 0xA 0x42, .inl ⟨_, _, _, rfl, rfl⟩, ⟨rfl, rfl, by decide, by decide⟩, by decide⟩

theorem witness_UnknownWordKeepsOnlyTheAdvance : ∃ s s1,
    State.Accepts s s1 ∧ s.Fetches ∧ legalWord s.wordAtPC = false :=
  ⟨ready 0x0123, _, .inl ⟨_, _, _, rfl, rfl⟩, ⟨rfl, rfl, by decide, by decide⟩, by decide⟩

theorem witness_FetchChecksInOrderBeforeAnyEffect :
    (∃ s s1, State.Accepts s s1 ∧ s.loaded = true ∧ s.W = none ∧ s.PC.toNat + 1 > 0xFFF) ∧
    (∃ s s1, State.Accepts s s1 ∧ s.loaded = true ∧ s.W = none ∧ s.PC.toNat + 1 ≤ 0xFFF ∧
      s.cfg.enforceProgramFloor = true ∧ s.PC.toNat < 0x200) ∧
    (∃ s s1, State.Accepts s s1 ∧ s.loaded = true ∧ s.W = none ∧ s.PC.toNat + 1 ≤ 0xFFF ∧
      (s.cfg.enforceProgramFloor = true → 0x200 ≤ s.PC.toNat)) :=
  ⟨⟨State.reset.setPC 0xFFF, _, .inr ⟨rfl, rfl⟩, rfl, rfl, by decide⟩,
   ⟨State.reset.setPC 0x1FF, _, .inr ⟨rfl, rfl⟩, rfl, rfl, by decide, rfl, by decide⟩,
   ⟨State.reset.setPC 0xFFE, _, .inr ⟨rfl, rfl⟩, rfl, rfl, by decide, by decide⟩⟩

theorem witness_StepBeforeLoadIsRefused : ∃ s s1, State.Accepts s s1 ∧ s.loaded = false :=
  ⟨unloaded, _, .inr ⟨rfl, rfl⟩, rfl⟩

theorem witness_WaitingStepTakesTheLowestKey :
    (∃ s s1 x, ∃ k : Fin 16, State.Accepts s s1 ∧ s.loaded = true ∧ s.W = some x ∧ s1.keys[k] = true ∧
      ∀ j : Fin 16, j < k → s1.keys[j] = false) ∧
    (∃ s s1 x, State.Accepts s s1 ∧ s.loaded = true ∧ s.W = some x ∧ ∀ k : Fin 16, s1.keys[k] = false) :=
  ⟨⟨{ waiting with pending := [.step (keysOf [15]) 0] }, _, 2, 15, .inl ⟨_, _, _, rfl, rfl⟩, rfl, rfl, by decide,
    by decide⟩, ⟨waiting, _, 2, .inr ⟨rfl, rfl⟩, rfl, rfl, by decide⟩⟩

theorem witness_FaultKeepsOnlyTheFetch :
    (∃ i s t e, exec i s = .next t ∧ t.status = .fault e) ∧
    (∃ s s1 t, State.Accepts s s1 ∧ step s = .next t ∧ t.status = .fault .notLoaded) ∧
    (∃ s s1 t pc, State.Accepts s s1 ∧ step s = .next t ∧ t.status = .fault (.outOfBounds (.fetch pc))) ∧
    (∃ s s1 t pc, State.Accepts s s1 ∧ step s = .next t ∧
      t.status = .fault (.specFault (.fetchBelowProgramSpace pc))) ∧
    (∃ s s1 t sp, State.Accepts s s1 ∧ step s = .next t ∧ t.status = .fault (.stackUnderflow sp)) ∧
    (∃ x y n s t, exec (.drw x y n) s = .next t) :=
  ⟨⟨.ret, State.reset, _, _, rfl, rfl⟩, ⟨unloaded, _, _, .inr ⟨rfl, rfl⟩, rfl, rfl⟩,
   ⟨State.reset.setPC 0xFFF, _, _, _, .inr ⟨rfl, rfl⟩, rfl, rfl⟩,
   ⟨State.reset.setPC 0x1FF, _, _, _, .inr ⟨rfl, rfl⟩, rfl, rfl⟩,
   ⟨ready 0x00EE, _, _, 0, .inl ⟨_, _, _, rfl, rfl⟩, rfl, by decide⟩, ⟨0, 1, 5, State.reset, _, rfl⟩⟩

theorem witness_RedrawExactlyAfterClearOrDraw :
    (∃ s s1 t, State.Accepts s s1 ∧ step s = .next t ∧ t.redraw = true) ∧
    (∃ s s1 t, State.Accepts s s1 ∧ step s = .next t ∧ t.redraw = false) :=
  ⟨⟨ready 0xD010, _, _, .inl ⟨_, _, _, rfl, rfl⟩, rfl, by decide⟩,
   ⟨ready 0x1200, _, _, .inl ⟨_, _, _, rfl, rfl⟩, rfl, by decide⟩⟩

theorem witness_AwaitingKeyExactlyWhileWaiting : ∃ s s1 t,
    State.Accepts s s1 ∧ s.loaded = true ∧ step s = .next t ∧ t.status = .awaitingKey :=
  ⟨ready 0xF20A, _, _, .inl ⟨_, _, _, rfl, rfl⟩, rfl, rfl, by decide⟩

theorem witness_RegistersChangeOnlyWhereNamed : ∃ i s t r, exec i s = .next t ∧ ¬ SpecWritesV i r :=
  ⟨.loadRegs 3, State.reset.setI 0x300, _, 4, rfl, by unfold SpecWritesV; decide⟩

theorem witness_IndexChangesOnlyByItsWriters : ∃ i s t, exec i s = .next t ∧ t.I ≠ s.I :=
  ⟨.addI 0, withV [(0, 1)] State.reset, _, rfl, by decide⟩

theorem witness_StackChangesOnlyByCallAndReturn : ∃ i s t, exec i s = .next t ∧ t.S ≠ s.S ∧ t.SP ≠ s.SP :=
  ⟨.call 0x300, State.reset, _, rfl, by decide, by decide⟩

theorem witness_CounterChangesOnlyByFlow : ∃ i s t, exec i s = .next t ∧ ¬ SpecWritesPC i :=
  ⟨.drw 0 1 5, State.reset, _, rfl, id⟩

theorem witness_StepsChangeTimersOnlyByTheirInstructions :
    (∃ s s1 t, State.Accepts s s1 ∧ step s = .next t ∧ t.DT ≠ s.DT) ∧
    (∃ s s1 t, State.Accepts s s1 ∧ step s = .next t ∧ t.ST ≠ s.ST) :=
  ⟨⟨ready 0xF115 (withV [(1, 0xFF)] State.reset), _, _, .inl ⟨_, _, _, rfl, rfl⟩, rfl, by decide⟩,
   ⟨ready 0xF118 (withV [(1, 0xFF)] State.reset), _, _, .inl ⟨_, _, _, rfl, rfl⟩, rfl, by decide⟩⟩

theorem witness_DisplayChangesOnlyByClearDrawAndLoad :
    (∃ s t rom rest, s.pending = .load rom :: rest ∧ step s = .next t ∧ t.D ≠ s.D) ∧
    (∃ s s1 t, State.Accepts s s1 ∧ s.Fetches ∧ step s = .next t ∧ t.D ≠ s.D) :=
  ⟨⟨{ State.reset.togglePixel 0 0 with pending := [.load []] }, _, _, _, rfl, rfl, by decide⟩,
   ⟨ready 0x00E0 (State.reset.togglePixel 63 31), _, _, .inl ⟨_, _, _, rfl, rfl⟩, ⟨rfl, rfl, by decide, by decide⟩,
    rfl, by decide⟩⟩

theorem witness_MemoryChangesOnlyByStores : ∃ i s t,
    exec i s = .next t ∧ (∀ x, i ≠ .ldBcd x) ∧ ∀ x, i ≠ .storeRegs x :=
  ⟨.call 0x300, State.reset, _, rfl, by simp, by simp⟩

theorem witness_InstructionsLeaveInputsAndStatusElements : ∃ i s t, exec i s = .next t ∧ t.W ≠ s.W :=
  ⟨.ldKey 2, State.reset, _, rfl, by decide⟩

theorem witness_CallPushesTheReturnAddress :
    (∃ s : State, s.SP.val < 16 ∧ s.SP.val = 15) ∧ ∃ s : State, s.SP.val = 16 :=
  ⟨⟨{ State.reset with SP := 15 }, by decide⟩, ⟨{ State.reset with SP := 16 }, rfl⟩⟩

theorem witness_ReturnPopsTheReturnAddress :
    (∃ s : State, 0 < s.SP.val ∧ s.SP.val = 16) ∧ ∃ s : State, s.SP.val = 0 :=
  ⟨⟨{ State.reset with SP := 16 }, by decide⟩, ⟨State.reset, rfl⟩⟩

theorem witness_ReturnUndoesCall : ∃ (nnn : BitVec 12) (s t u : State),
    s.SP.val < 16 ∧ exec (.call nnn) s = .next t ∧ u.S = t.S ∧ u.SP = t.SP :=
  ⟨0x300, { State.reset with SP := 15 }, _, _, by decide, rfl, rfl, rfl⟩

theorem witness_AddSubtractAndShift :
    (∃ s : State, s.cfg.vfAliasMode = .sequential) ∧
    (∃ (x y : Reg) (s : State), s.cfg.vfAliasMode = .fault ∧ x ≠ 0xF ∧ y ≠ 0xF) :=
  ⟨⟨State.reset, rfl⟩, ⟨0xE, 0, aliasFaults, rfl, by decide, by decide⟩⟩

theorem witness_VfOperandTableInSequentialMode : ∃ (x y : Reg) (s : State),
    s.cfg.vfAliasMode = .sequential ∧ x ≠ 0xF ∧ y ≠ 0xF := ⟨0, 0xE, State.reset, rfl, by decide, by decide⟩

theorem witness_VfOperandIsAFaultInFaultMode :
    (∃ (x y : Reg) (s : State), s.cfg.vfAliasMode = .fault ∧ (x = 0xF ∨ y = 0xF)) ∧
    (∃ (x : Reg) (s : State), s.cfg.vfAliasMode = .fault ∧ x = 0xF) :=
  ⟨⟨0, 0xF, aliasFaults, rfl, .inr rfl⟩, ⟨0xF, aliasFaults, rfl, rfl⟩⟩

theorem witness_RandomByteIsReadByRndAlone : ∃ i s t, (∀ x kk, i ≠ Instr.rnd x kk) ∧ exec i s = .next t :=
  ⟨.drw 0 1 5, State.reset, _, by simp, rfl⟩

theorem witness_KeysAreReadByKeyInstructionsAlone : ∃ i s t,
    (∀ x, i ≠ Instr.skp x ∧ i ≠ .sknp x ∧ i ≠ .ldKey x) ∧ exec i s = .next t :=
  ⟨.storeRegs 0xF, State.reset.setI 0xFF0, _, by simp, rfl⟩

theorem witness_AddToIndexIsChecked :
    (∃ (x : Reg) (s : State), s.I.toNat + s.V[x].toNat = 0xFFF) ∧
    (∃ (x : Reg) (s : State), s.I.toNat + s.V[x].toNat = 0x1000) :=
  ⟨⟨0, State.reset.setI 0xFFF, by decide⟩, ⟨0, withV [(0, 1)] (State.reset.setI 0xFFF), by decide⟩⟩

theorem witness_BcdStoresThreeDigits :
    (∃ s : State, s.I.toNat + 2 = 0xFFF ∧ (s.cfg.enforceFontReadonly = true →
      s.I.toNat > s.cfg.fontBase.val + 79 ∨ s.I.toNat + 2 < s.cfg.fontBase.val)) ∧
    (∃ s : State, s.I.toNat + 2 = 0x1000) ∧
    (∃ s : State, s.I.toNat + 2 ≤ 0xFFF ∧ s.cfg.enforceFontReadonly = true ∧ s.I.toNat ≤ s.cfg.fontBase.val + 79 ∧
      s.I.toNat + 2 = s.cfg.fontBase.val) :=
  ⟨⟨State.reset.setI 0xFFD, by decide, by decide⟩, ⟨State.reset.setI 0xFFE, by decide⟩,
   ⟨State.reset.setI 0x04E, by decide, rfl, by decide, by decide⟩⟩

theorem witness_StoreWritesRegistersFromI :
    (∃ (x : Reg) (s : State), s.I.toNat + x.val = 0xFFF ∧ (s.cfg.enforceFontReadonly = true →
      s.I.toNat > s.cfg.fontBase.val + 79 ∨ s.I.toNat + x.val < s.cfg.fontBase.val)) ∧
    (∃ (x : Reg) (s : State), s.I.toNat + x.val = 0x1000) ∧
    (∃ (x : Reg) (s : State), s.I.toNat + x.val ≤ 0xFFF ∧ s.cfg.enforceFontReadonly = true ∧
      s.I.toNat = s.cfg.fontBase.val + 79 ∧ s.I.toNat + x.val ≥ s.cfg.fontBase.val) :=
  ⟨⟨0xF, State.reset.setI 0xFF0, by decide, by decide⟩, ⟨0xF, State.reset.setI 0xFF1, by decide⟩,
   ⟨0, State.reset.setI 0x09F, by decide, rfl, by decide, by decide⟩⟩

theorem witness_LoadReadsRegistersFromI :
    (∃ (x : Reg) (s : State), s.I.toNat + x.val = 0xFFF) ∧ ∃ (x : Reg) (s : State), s.I.toNat + x.val = 0x1000 :=
  ⟨⟨0, State.reset.setI 0xFFF, by decide⟩, ⟨1, State.reset.setI 0xFFF, by decide⟩⟩

theorem witness_StoredWordIsFetchedLater : ∃ (x k : Reg) (s t u : State), k.val + 1 < 16 ∧
    exec (.storeRegs x) s = .next t ∧ t.status = .ok ∧ k < x ∧ u.M = t.M ∧ u.cfg = t.cfg ∧ u.loaded = t.loaded ∧
    u.memDraw = t.memDraw ∧ u.PC.toNat = s.I.toNat + k.val := by
  refine ⟨0xF, 0xE, State.reset.setI 0xFF0, _, State.setPC 0xFFE _, by decide, rfl, by decide, by decide,
    rfl, rfl, rfl, rfl, by decide⟩

theorem witness_DrawTogglesExactlyTheSprite :
    (∃ (s : State) (px : Fin 64) (py : Fin 32), SpriteCovers s 0 1 1 px py ∧ s.D[py][px] = true) ∧
    (∃ (s : State) (px : Fin 64) (py : Fin 32), SpriteCovers s 0 1 1 px py ∧ s.D[py][px] = false) ∧
    (∃ s : State, s.I.toNat + 0 > 0xFFF) ∧ (∃ s : State, s.I.toNat + 1 > 0xFFF ∧ ∀ r < 1, s.I.toNat + r ≤ 0xFFF) :=
  ⟨⟨(State.writeByte 0x300 0x01 (State.reset.setI 0x300)).togglePixel 7 0, 7, 0,
     ⟨0, 7, by decide, by decide, by decide, by decide, by decide, by decide⟩, by decide⟩,
   ⟨State.writeByte 0x300 0x01 (State.reset.setI 0x300), 7, 0,
     ⟨0, 7, by decide, by decide, by decide, by decide, by decide, by decide⟩, by decide⟩,
   ⟨State.reset.setI 0x1000, by decide⟩, ⟨State.reset.setI 0xFFF, by decide, by decide⟩⟩

theorem witness_DrawingTwiceRestoresTheDisplay : ∃ (x y : Reg) (n : Fin 16) (s t u v : State), x ≠ 0xF ∧ y ≠ 0xF ∧
    exec (.drw x y n) s = .next t ∧ u.D = t.D ∧ u.V = t.V ∧ u.I = t.I ∧
    (∀ row < n.val, u.readByte (s.I.toNat + row) = s.readByte (s.I.toNat + row)) ∧
    exec (.drw x y n) u = .next v ∧ s.D[0][0] = false ∧ t.D[0][0] = true :=
  ⟨0, 1, 5, State.reset.setI 0x050, _, _, _, by decide, by decide, rfl, rfl, rfl, rfl, by decide, rfl, by decide,
    by decide⟩

theorem witness_KeySkipsTestTheKeyNamed :
    (∃ (x : Reg) (s : State) (k : Fin 16), s.V[x].toNat = k.val ∧ k = 15) ∧
    (∃ (x : Reg) (s : State), s.V[x].toNat = 0x10) :=
  ⟨⟨5, withV [(5, 15)] State.reset, 15, by decide, rfl⟩, ⟨5, withV [(5, 0x10)] State.reset, by decide⟩⟩

theorem witness_WaitForKeyTakesTheLowestOrWaits :
    (∃ (s : State) (k : Fin 16), s.keys[k] = true ∧ ∀ j : Fin 16, j < k → s.keys[j] = false) ∧
    (∃ s : State, ∀ k : Fin 16, s.keys[k] = false) :=
  ⟨⟨{ State.reset with keys := keysOf [15] }, 15, by decide, by decide⟩, ⟨State.reset, by decide⟩⟩

theorem witness_TickCountsEachTimerTowardZero : ∃ (s : State) (rest : List Transaction),
    s.pending = .tickTimers :: rest ∧ s.DT.toNat = 1 ∧ s.ST.toNat = 0 :=
  ⟨{ State.reset with DT := 1, pending := [.tickTimers] }, _, rfl, rfl, rfl⟩

theorem witness_LoadIsTheFullReset : ∃ (s : State) (rom : List Byte) (rest : List Transaction),
    s.pending = .load rom :: rest ∧ rom.length = 3584 :=
  ⟨{ unloaded with pending := [.load (List.replicate 3584 0xAA)] }, _, _, rfl, List.length_replicate⟩

theorem witness_LoadLeavesTheRestADraw : ∃ (s t : State) (rom : List Byte) (rest : List Transaction),
    s.pending = .load rom :: rest ∧ rom.length ≤ 3584 ∧ step s = .next t :=
  ⟨{ waiting with pending := [.load []] }, _, _, _, rfl, by decide, rfl⟩

theorem witness_OversizeLoadChangesNothing : ∃ (s : State) (rom : List Byte) (rest : List Transaction),
    s.pending = .load rom :: rest ∧ rom.length = 3585 :=
  ⟨{ unloaded with pending := [.load (List.replicate 3585 0)] }, _, _, rfl, List.length_replicate⟩

theorem witness_LoadedMachineStaysLoaded : ∃ s t, step s = .next t ∧ s.loaded = true :=
  ⟨{ State.reset with pending := [.load []] }, _, rfl, rfl⟩

theorem witness_EveryStepKeepsMachineBounds : ∃ s t, State.Inv s ∧ step s = .next t :=
  ⟨ready 0xB300, _, ⟨by decide, by decide, by decide, by decide⟩, rfl⟩

end Sys2Proof.Tests
end

section
/-! SUPPORT. What no step of the engine writes: the parameters (00_scope.md R7), the load flag, the inputs
(10_state.md R35, R37) and the model's own counters. The one obligation of 00_scope.md follows, transaction by
transaction. -/

namespace Sys2Proof.Machine

/-- `t` has the parameters, the load flag, the step's inputs and the model's own fields of `s`. -/
structure State.KeepsSetup (s t : State) : Prop where
  cfg : t.cfg = s.cfg
  loaded : t.loaded = s.loaded
  memDraw : t.memDraw = s.memDraw
  keys : t.keys = s.keys
  rand : t.rand = s.rand
  randDraw : t.randDraw = s.randDraw
  pending : t.pending = s.pending

/-- Elements of R37 other than the load flag, and the outputs of R36, may change freely. -/
theorem State.keepsSetup_update (s : State) (M : List Host.Cell) (V : Vector Byte 16) (I PC : Word) (SP : Fin 17)
    (S : Vector Word 16) (DT ST : Byte) (D : Display) (W : Option Reg) (st : Status) (rd : Bool) :
    s.KeepsSetup { s with M, V, I, PC, SP, S, DT, ST, D, W, status := st, redraw := rd } :=
  ⟨rfl, rfl, rfl, rfl, rfl, rfl, rfl⟩

theorem State.keepsSetup_output (s : State) (st : Status) (rd : Bool) : s.KeepsSetup (s.output st rd) :=
  s.keepsSetup_update ..

/-- An instruction that completes keeps the setup: each effect is an update of other fields. -/
theorem Completed.keepsSetup {i : Instr} {s t : State} (h : Completed i s t) : s.KeepsSetup t := by
  cases i with
  | ret | call | addI => obtain ⟨-, rfl⟩ := h; exact s.keepsSetup_update ..
  | seImm | sneImm | seReg | sneReg => rw [show t = _ from h]; split <;> exact s.keepsSetup_update ..
  | skp | sknp => obtain ⟨-, rfl⟩ := h; split <;> exact s.keepsSetup_update ..
  | ldKey => obtain ⟨k, -, rfl⟩ | ⟨-, rfl⟩ := h <;> exact s.keepsSetup_update ..
  | drw => rw [show t = _ from h, drawRows_eq]; exact s.keepsSetup_update ..
  | ldBcd | storeRegs => obtain ⟨-, rfl⟩ := h; rw [State.writeBytes_eq]; exact s.keepsSetup_update ..
  | loadRegs => obtain ⟨-, rfl⟩ := h; rw [loadInto_eq]; exact s.keepsSetup_update ..
  | cls | jp | ldImm | addImm | ldReg | orReg | andReg | xorReg | addReg | subReg | shr | subnReg | shl | ldI | jpV0
  | rnd | ldFromDT | ldToDT | ldToST | ldFont => rw [show t = _ from h]; exact s.keepsSetup_update ..

/-- No instruction changes the setup, whether it fails or completes (R35, R37, R127). -/
theorem exec_keepsSetup {i : Instr} {s t : State} (h : exec i s = .next t) : s.KeepsSetup t := by
  obtain ⟨e, -, rfl⟩ | hc := exec_cases h
  · exact s.keepsSetup_output ..
  · exact hc.keepsSetup

/-- A step in a wait keeps the setup, whether a key ends the wait or not (R124). -/
theorem resumeWait_keepsSetup {x : Reg} {s t : State} (h : resumeWait x s = .next t) : s.KeepsSetup t := by
  unfold resumeWait at h
  split at h <;> cases next_inj h <;> exact s.keepsSetup_update ..

/-- Running a fetched word keeps the setup, also when the word is unknown (R126, R127). -/
theorem runWord_keepsSetup {w : Word} {s t : State} (h : runWord w s = .next t) : s.KeepsSetup t := by
  obtain ⟨i, -, hr⟩ | ⟨-, hr⟩ := runWord_cases w s <;> rw [hr] at h
  · exact exec_keepsSetup h
  · cases next_inj h; exact s.keepsSetup_output ..

/-- The step engine never changes the setup of the state that holds its inputs (R122). -/
theorem stepSupplied_keepsSetup {s t : State} (h : stepSupplied s = .next t) : s.KeepsSetup t := by
  obtain ⟨-, hr⟩ | ⟨x, -, -, hr⟩ | ⟨-, -, -, hr⟩ | ⟨-, -, -, -, -, hr⟩ | ⟨-, hr⟩ := stepSupplied_cases s <;>
    rw [hr] at h
  · cases next_inj h; exact s.keepsSetup_output ..
  · exact resumeWait_keepsSetup h
  · cases next_inj h; exact s.keepsSetup_output ..
  · cases next_inj h; exact s.keepsSetup_output ..
  · -- the advance of PC alone lies between `s` and the state the word runs on
    obtain ⟨hcfg, hloaded, hdraw, hkeys, hrand, hnext, hpending⟩ := runWord_keepsSetup h
    exact ⟨hcfg, hloaded, hdraw, hkeys, hrand, hnext, hpending⟩

/-- A load, accepted or refused, leaves the parameters as they are (R7, R351, R352). -/
@[simp] theorem load_cfg (rom : List Byte) (s : State) : (load rom s).cfg = s.cfg := by
  unfold load; split <;> rfl

/-- A machine is loaded after a load exactly when the ROM fits or it was loaded before: a refused load does not unload
it (R351, R352). -/
theorem load_loaded (rom : List Byte) (s : State) : (load rom s).loaded = (romFits rom || s.loaded) := by
  unfold load; split <;> simp_all

end Sys2Proof.Machine

open Sys2Proof Sys2Proof.Machine

/-- Settles O56, by the three transactions: the step engine and the timer tick write neither field, and a load only
ever sets the load flag. -/
theorem loadedMachineStaysLoaded : Obligations.LoadedMachineStaysLoaded := by
  intro s t h
  obtain ⟨s1, ha, hs⟩ | ⟨rom, rest, -, hs⟩ | ⟨rest, -, hs⟩ := step_cases s <;> rw [hs] at h
  · have hk := stepSupplied_keepsSetup h
    rw [accepts_frame ha] at hk
    exact ⟨hk.cfg, fun hl => hk.loaded.trans hl⟩
  · cases next_inj h
    exact ⟨load_cfg .., fun hl => by rw [load_loaded, hl, Bool.or_true]⟩
  · cases next_inj h
    exact ⟨rfl, id⟩
end

section
/-! SUPPORT. Which element of 10_state.md R37 an instruction may write, said once for every element: the frame of
`exec`. The obligations on single instructions follow element by element. -/

namespace Sys2Proof.Machine

/-- Each element of the state keeps its value from `s` to `t` unless `i` is one of the instructions whose rule writes
it (10_state.md R21, R24, R26, R31, R33, R34, 20_memory.md R62). An element that `t` copies from `s` needs no
argument, so a proof names only the elements that `i` writes. -/
structure InstrFrame (i : Instr) (s t : State) : Prop where
  registers : ∀ r : Reg, ¬ SpecWritesV i r → t.V[r] = s.V[r] := by exact fun _ _ => rfl
  index : t.I = s.I ∨ (∃ nnn, i = .ldI nnn) ∨ (∃ x, i = .addI x) ∨ ∃ x, i = .ldFont x := by exact .inl rfl
  counter : ¬ SpecWritesPC i → t.PC = s.PC := by exact fun _ => rfl
  stack : (t.S = s.S ∧ t.SP = s.SP) ∨ (i = .ret ∧ t.S = s.S) ∨ ∃ nnn, i = .call nnn := by exact .inl ⟨rfl, rfl⟩
  memory : t.M = s.M ∨ (∃ x, i = .ldBcd x) ∨ ∃ x, i = .storeRegs x := by exact .inl rfl
  delay : t.DT = s.DT ∨ ∃ x, i = .ldToDT x := by exact .inl rfl
  sound : t.ST = s.ST ∨ ∃ x, i = .ldToST x := by exact .inl rfl
  display : t.D = s.D ∨ i = .cls ∨ ∃ x y n, i = .drw x y n := by exact .inl rfl
  wait : t.W = s.W ∨ ∃ x, i = .ldKey x := by exact .inl rfl

theorem InstrFrame.of_output (i : Instr) (s : State) (st : Status) (rd : Bool) : InstrFrame i s (s.output st rd) := {}

/-- An instruction that only writes its destination register. -/
theorem InstrFrame.of_setV {i : Instr} {x : Reg} (s : State) (b : Byte) (st : Status) (rd : Bool)
    (hx : SpecWritesV i x) : InstrFrame i s ((s.setV x b).output st rd) where
  registers r hr := s.getV_setV_ne b fun e : x = r => hr (e ▸ hx)

/-- A flag writer: VF, then the destination (R24). -/
theorem InstrFrame.of_flagThenSetV {i : Instr} {x : Reg} (s : State) (f b : Byte) (st : Status) (rd : Bool)
    (hx : SpecWritesV i x) (hf : SpecWritesV i vf) :
    InstrFrame i s (((withFlag f s).setV x b).output st rd) where
  registers r hr := ((withFlag f s).getV_setV_ne b fun e : x = r => hr (e ▸ hx)).trans
    (s.getV_setV_ne f fun e : vf = r => hr (e ▸ hf))

/-- An instruction that may only set PC. -/
theorem InstrFrame.of_setPC {i : Instr} (s : State) (p : Word) (st : Status) (rd : Bool) (hi : SpecWritesPC i) :
    InstrFrame i s ((s.setPC p).output st rd) where
  counter hn := absurd hi hn

/-- Dxyn writes VF and the display alone (R251). -/
theorem InstrFrame.of_drw (x y : Reg) (n : Fin 16) (s : State) (vx vy f : Byte) (st : Status) (rd : Bool) :
    InstrFrame (.drw x y n) s ((drawRows vx vy n.val 0 (withFlag f s)).1.output st rd) := by
  have hV : ∀ r, ¬ SpecWritesV (.drw x y n) r →
      (drawRows vx vy n.val 0 (withFlag f s)).1.getV r = s.getV r := fun r hr =>
    (getV_drawRows_ne hr).trans (s.getV_setV_ne f fun e => hr e.symm)
  rw [drawRows_eq]
  exact { registers := hV, display := .inr (.inr ⟨x, y, n, rfl⟩) }

/-- Fx65 writes V[0]..V[x] alone (R225). -/
theorem InstrFrame.of_loadRegs (x : Reg) (s : State) (st : Status) (rd : Bool) :
    InstrFrame (.loadRegs x) s ((loadInto (regsUpTo x) s).output st rd) := by
  have hV : ∀ r, ¬ SpecWritesV (.loadRegs x) r → (loadInto (regsUpTo x) s).getV r = s.getV r :=
    fun r hr => by rw [getV_loadInto, if_neg (mt (mem_regsUpTo x r).mp hr)]
  rw [loadInto_eq]
  exact { registers := hV }

/-- An instruction that completes writes only what its rule names. -/
theorem Completed.frame {i : Instr} {s t : State} (h : Completed i s t) : InstrFrame i s t := by
  cases i with
  | cls => obtain rfl : t = _ := h; exact { display := .inr (.inl rfl) }
  | ret =>
    obtain ⟨-, rfl⟩ := h
    exact { stack := .inr (.inl ⟨rfl, rfl⟩), counter := fun hn => absurd trivial hn }
  | call nnn =>
    obtain ⟨-, rfl⟩ := h
    exact { stack := .inr (.inr ⟨nnn, rfl⟩), counter := fun hn => absurd trivial hn }
  | jp | jpV0 => obtain rfl : t = _ := h; exact .of_setPC s _ _ _ trivial
  | seImm | seReg =>
    obtain rfl : t = _ := h
    split
    · exact .of_setPC s _ _ _ trivial
    · exact .of_output ..
  | sneImm | sneReg =>
    obtain rfl : t = _ := h
    split
    · exact .of_output ..
    · exact .of_setPC s _ _ _ trivial
  | skp =>
    obtain ⟨-, rfl⟩ := h
    split
    · exact .of_setPC s _ _ _ trivial
    · exact .of_output ..
  | sknp =>
    obtain ⟨-, rfl⟩ := h
    split
    · exact .of_output ..
    · exact .of_setPC s _ _ _ trivial
  | ldImm | addImm | ldReg | orReg | andReg | xorReg | rnd | ldFromDT =>
    obtain rfl : t = _ := h; exact .of_setV s _ _ _ rfl
  | addReg | subReg | shr | subnReg | shl =>
    obtain rfl : t = _ := h; exact .of_flagThenSetV s _ _ _ _ (.inl rfl) (.inr rfl)
  | ldKey x =>
    obtain ⟨k, -, rfl⟩ | ⟨-, rfl⟩ := h
    · exact .of_setV s _ _ _ rfl
    · exact { wait := .inr ⟨x, rfl⟩ }
  | ldI nnn => obtain rfl : t = _ := h; exact { index := .inr (.inl ⟨nnn, rfl⟩) }
  | addI x => obtain ⟨-, rfl⟩ := h; exact { index := .inr (.inr (.inl ⟨x, rfl⟩)) }
  | ldFont x => obtain rfl : t = _ := h; exact { index := .inr (.inr (.inr ⟨x, rfl⟩)) }
  | ldToDT x => obtain rfl : t = _ := h; exact { delay := .inr ⟨x, rfl⟩ }
  | ldToST x => obtain rfl : t = _ := h; exact { sound := .inr ⟨x, rfl⟩ }
  | drw => obtain rfl : t = _ := h; exact .of_drw ..
  | ldBcd x => obtain ⟨-, rfl⟩ := h; rw [State.writeBytes_eq]; exact { memory := .inr (.inl ⟨x, rfl⟩) }
  | storeRegs x => obtain ⟨-, rfl⟩ := h; rw [State.writeBytes_eq]; exact { memory := .inr (.inr ⟨x, rfl⟩) }
  | loadRegs => obtain ⟨-, rfl⟩ := h; exact .of_loadRegs ..

/-- Whether it fails or completes, an instruction writes only what its rule names (R127). -/
theorem exec_frame {i : Instr} {s t : State} (h : exec i s = .next t) : InstrFrame i s t := by
  obtain ⟨e, -, rfl⟩ | hc := exec_cases h
  · exact .of_output ..
  · exact hc.frame

end Sys2Proof.Machine

open Sys2Proof Sys2Proof.Machine

/-- Settles O15, by the registers of the frame. -/
theorem registersChangeOnlyWhereNamed : Obligations.RegistersChangeOnlyWhereNamed :=
  fun _ _ _ r h => (exec_frame h).registers r

/-- Settles O16, by the index of the frame. -/
theorem indexChangesOnlyByItsWriters : Obligations.IndexChangesOnlyByItsWriters :=
  fun _ _ _ h hne => (exec_frame h).index.resolve_left hne

/-- Settles O17, by the stack of the frame: unchanged, a pop that moves SP alone, or a call. -/
theorem stackChangesOnlyByCallAndReturn : Obligations.StackChangesOnlyByCallAndReturn := by
  intro i s t h
  obtain ⟨hS, hSP⟩ | ⟨hret, hS⟩ | hcall := (exec_frame h).stack
  · exact ⟨fun hne => absurd hS hne, fun hne => absurd hSP hne⟩
  · exact ⟨fun hne => absurd hS hne, fun _ => .inl hret⟩
  · exact ⟨fun _ => hcall, fun _ => .inr hcall⟩

/-- Settles O22: the setup is kept by every instruction, and the wait by all but Fx0A. -/
theorem instructionsLeaveInputsAndStatusElements : Obligations.InstructionsLeaveInputsAndStatusElements := by
  intro i s t h
  obtain ⟨hcfg, hloaded, hmem, hkeys, hrand, hdraw, hpending⟩ := exec_keepsSetup h
  exact ⟨hcfg, hloaded, hmem, hkeys, hrand, hdraw, hpending, (exec_frame h).wait.resolve_left⟩
end

section
/-! SUPPORT. What a step transaction can do to the state it runs on: execute one instruction, or none. The obligations
on the timers and the display follow. -/

namespace Sys2Proof.Machine

/-- From `s` to `t` no instruction is executed: V and W may change (a key ends a wait), PC may take the advance of a
fetch (an unknown word), the outputs are written, and nothing else changes (R123 to R126). -/
def State.Idles (s t : State) : Prop :=
  ∃ V W PC st rd, (PC = s.PC ∨ s.Fetches ∧ PC = s.PC + 2) ∧
    t = { s with V := V, W := W, PC := PC, status := st, redraw := rd }

theorem State.idles_output (s : State) (st : Status) (rd : Bool) : s.Idles (s.output st rd) :=
  ⟨_, _, _, _, _, .inl rfl, rfl⟩

theorem resumeWait_idles {x : Reg} {s t : State} (h : resumeWait x s = .next t) : s.Idles t := by
  unfold resumeWait at h
  split at h <;> cases next_inj h <;> exact ⟨_, _, _, _, _, .inl rfl, rfl⟩

/-- The step engine executes the instruction at PC on the state the fetch left, or executes none (R122). -/
theorem stepSupplied_next {s t : State} (h : stepSupplied s = .next t) :
    (∃ i, s.Fetches ∧ decodeWord s.wordAtPC = some i ∧ exec i s.advance = .next t) ∨ s.Idles t := by
  obtain ⟨-, hr⟩ | ⟨x, -, -, hr⟩ | ⟨-, -, -, hr⟩ | ⟨-, -, -, -, -, hr⟩ | ⟨hf, hr⟩ := stepSupplied_cases s <;>
    rw [hr] at h
  · cases next_inj h; exact .inr (s.idles_output ..)
  · exact .inr (resumeWait_idles h)
  · cases next_inj h; exact .inr (s.idles_output ..)
  · cases next_inj h; exact .inr (s.idles_output ..)
  · obtain ⟨i, hi, hx⟩ | ⟨-, hx⟩ := runWord_cases s.wordAtPC s.advance <;> rw [hx] at h
    · exact .inl ⟨i, hf, hi, h⟩
    · cases next_inj h; exact .inr ⟨_, _, _, _, _, .inr ⟨hf, rfl⟩, rfl⟩

/-- Timers and display change in a step only by the instruction it fetched (R33, R34). -/
theorem step_keeps_timers_and_display {s s1 t : State} (ha : s.Accepts s1) (h : step s = .next t) :
    (t.DT = s.DT ∨ s.Fetches ∧ ∃ x, decodeWord s.wordAtPC = some (.ldToDT x)) ∧
    (t.ST = s.ST ∨ s.Fetches ∧ ∃ x, decodeWord s.wordAtPC = some (.ldToST x)) ∧
    (t.D = s.D ∨ s.Fetches ∧
      (decodeWord s.wordAtPC = some .cls ∨ ∃ x y n, decodeWord s.wordAtPC = some (.drw x y n))) := by
  obtain ⟨-, -, -, -, -, -, -, -, hDT, hST, hD, -⟩ := accepts_fields ha
  rw [step_of_accepts ha] at h
  obtain ⟨i, hf, hi, hx⟩ | ⟨V, W, PC, st, rd, -, rfl⟩ := stepSupplied_next h
  · rw [fetches_of_accepts ha] at hf
    rw [wordAtPC_of_accepts ha] at hi
    have frame := exec_frame hx
    refine ⟨frame.delay.imp (·.trans hDT) ?_, frame.sound.imp (·.trans hST) ?_, frame.display.imp (·.trans hD) ?_⟩
    · rintro ⟨x, rfl⟩; exact ⟨hf, x, hi⟩
    · rintro ⟨x, rfl⟩; exact ⟨hf, x, hi⟩
    · rintro (rfl | ⟨x, y, n, rfl⟩)
      · exact ⟨hf, .inl hi⟩
      · exact ⟨hf, .inr ⟨x, y, n, hi⟩⟩
  · exact ⟨.inl hDT, .inl hST, .inl hD⟩

end Sys2Proof.Machine

open Sys2Proof Sys2Proof.Machine

/-- Settles O19, by the frame of the one instruction a step executes. -/
theorem stepsChangeTimersOnlyByTheirInstructions : Obligations.StepsChangeTimersOnlyByTheirInstructions := by
  intro s s1 t ha h
  obtain ⟨hDT, hST, -⟩ := step_keeps_timers_and_display ha h
  exact ⟨hDT.resolve_left, hST.resolve_left⟩

/-- Settles O20, by the three transactions: a step by its instruction's frame, a load freely, a timer tick never. -/
theorem displayChangesOnlyByClearDrawAndLoad : Obligations.DisplayChangesOnlyByClearDrawAndLoad := by
  intro s t h hne
  obtain ⟨s1, ha, -⟩ | ⟨rom, rest, hp, -⟩ | ⟨rest, -, hs⟩ := step_cases s
  · obtain ⟨-, -, hD⟩ := step_keeps_timers_and_display ha h
    exact .inr ⟨⟨s1, ha⟩, hD.resolve_left hne⟩
  · exact .inl ⟨rom, rest, hp⟩
  · rw [hs] at h
    cases next_inj h
    exact absurd rfl hne
end

section
/-! SUPPORT. The values at reset (10_state.md R38) and the invariant of 10_state.md R27, R29, R31 and 20_memory.md R60:
the bound of every value the rules write into I, PC and the stack, and the invariant over each transaction. -/

namespace Sys2Proof.Machine

/-! ### Reset -/

/-- Byte g of the font region is byte g of the font table (R69). -/
theorem fontByte_base_add (cfg : Config) (g : Nat) (h : g < 80) :
    fontByte cfg (cfg.fontBase.val + g) = some cfg.fontTable[g] := by
  rw [fontByte, dif_pos ⟨by omega, by omega⟩]
  simp only [Nat.add_sub_cancel_left]

/-- At reset nothing is listed, so the font region reads as the font. -/
theorem readByte_reset_font (g : Nat) (h : g < 80) : State.reset.readByte (0x050 + g) = Config.defaultFont[g] := by
  have hfont : State.reset.image (0x050 + g) = some Config.defaultFont[g] := fontByte_base_add Config.default g h
  show (State.reset.image (0x050 + g)).getD _ = _
  rw [hfont, Option.getD_some]

/-! ### Bounds of the values written -/

theorem addressOf_le (nnn : BitVec 12) : (addressOf nnn).toNat ≤ 0xFFF := by
  rw [addressOf, BitVec.toNat_setWidth]
  omega

/-- Bnnn reaches at most 0xFFF + 0xFF (R29). -/
theorem offsetTarget_le (nnn : BitVec 12) (s : State) : (offsetTarget nnn s).toNat ≤ 0x10FE := by
  have hbase := addressOf_le nnn
  rw [offsetTarget, BitVec.toNat_add, BitVec.toNat_setWidth]
  omega

/-- A glyph starts at most 75 bytes above FONT_BASE (R27). -/
theorem glyphAddress_le (cfg : Config) (v : Byte) : (glyphAddress cfg v).toNat ≤ 0xFFF := by
  have hdigit : (v &&& 0xF#8).toNat ≤ 15 := by rw [BitVec.toNat_and]; exact Nat.and_le_right
  have hbase := cfg.fontBase.isLt
  rw [glyphAddress, BitVec.toNat_ofNat]
  exact (Nat.mod_le ..).trans (by omega)

theorem toNat_add_two_le (w : Word) : (w + 2).toNat ≤ w.toNat + 2 := by
  rw [BitVec.toNat_add]
  exact Nat.mod_le ..

/-! ### One instruction -/

theorem State.KeepsSetup.image {s t : State} (h : s.KeepsSetup t) : t.image = s.image := by
  funext a
  rw [State.image, State.image, h.loaded, h.cfg]

/-- Fx33 and Fx55 store inside memory, every other instruction stores nothing (R60, R61). -/
theorem Completed.keeps_memory {i : Instr} {s t : State} (h : Completed i s t) (hm : Memory.wf s.image s.M) :
    Memory.wf t.image t.M := by
  obtain hM | ⟨x, rfl⟩ | ⟨x, rfl⟩ := h.frame.memory
  · rwa [h.keepsSetup.image, hM]
  · obtain ⟨hle, rfl⟩ := h
    exact State.writeBytes_keeps_wf _ _ s (by simp only [bcdDigits, List.length_cons, List.length_nil]; omega) hm
  · obtain ⟨hle, rfl⟩ := h
    exact State.writeBytes_keeps_wf _ _ s (by rw [length_valuesUpTo]; omega) hm

/-- Every writer of I writes a memory address (R27). -/
theorem Completed.keeps_index {i : Instr} {s t : State} (h : Completed i s t) (hI : s.I.toNat ≤ 0xFFF) :
    t.I.toNat ≤ 0xFFF := by
  obtain e | ⟨nnn, rfl⟩ | ⟨x, rfl⟩ | ⟨x, rfl⟩ := h.frame.index
  · rwa [e]
  · obtain rfl : t = _ := h
    exact addressOf_le nnn
  · obtain ⟨hle, rfl⟩ := h
    simp only [State.output_I, State.setI_I, BitVec.toNat_ofNat]
    omega
  · obtain rfl : t = _ := h
    exact glyphAddress_le ..

/-- After a fetch, PC is at most 0x1000: a skip adds 2, a return takes a return address, a jump its target (R29). -/
theorem Completed.counter_le {i : Instr} {s t : State} (h : Completed i s t) (hpc : s.PC.toNat ≤ 0x1000)
    (hret : ∀ k : Fin 16, k.val < s.SP.val → s.S[k].toNat ≤ 0x1000) : t.PC.toNat ≤ 0x10FE := by
  have hskip := toNat_add_two_le s.PC
  cases i with
  | ret =>
    obtain ⟨hsp, rfl⟩ := h
    have hpop := hret ⟨s.SP.val - 1, by omega⟩ (Nat.sub_lt hsp one_pos)
    exact hpop.trans (by decide)
  | jp nnn => obtain rfl : t = _ := h; exact (addressOf_le nnn).trans (by decide)
  | call nnn => obtain ⟨-, rfl⟩ := h; exact (addressOf_le nnn).trans (by decide)
  | jpV0 nnn => obtain rfl : t = _ := h; exact offsetTarget_le nnn s
  | seImm | sneImm | seReg | sneReg =>
    obtain rfl : t = _ := h
    split <;> simp only [State.output_PC, State.setPC_PC] <;> omega
  | skp | sknp =>
    obtain ⟨-, rfl⟩ := h
    split <;> simp only [State.output_PC, State.setPC_PC] <;> omega
  | _ => rw [h.frame.counter id]; omega

/-- A call pushes the PC the fetch left; a return leaves the slots still in use as they are (R150, R152). -/
theorem Completed.keeps_returns {i : Instr} {s t : State} (h : Completed i s t) (hpc : s.PC.toNat ≤ 0x1000)
    (hret : ∀ k : Fin 16, k.val < s.SP.val → s.S[k].toNat ≤ 0x1000) :
    ∀ k : Fin 16, k.val < t.SP.val → t.S[k].toNat ≤ 0x1000 := by
  obtain ⟨hS, hSP⟩ | ⟨rfl, -⟩ | ⟨nnn, rfl⟩ := h.frame.stack
  · rwa [hS, hSP]
  · obtain ⟨-, rfl⟩ := h
    exact fun k hk => hret k (Nat.lt_of_lt_of_le hk (Nat.sub_le ..))
  · obtain ⟨hsp, rfl⟩ := h
    intro k hk
    simp only [State.output_S, State.setPC_S, State.setStack_S, Fin.getElem_fin, Vector.getElem_set]
    split
    · exact hpc
    · next hne => exact hret k (by simp only [State.output_SP, State.setPC_SP, State.setStack_SP] at hk; omega)

/-- An instruction on the state its fetch left keeps the invariant. -/
theorem exec_keepsInv {i : Instr} {s t : State} (hs : s.Inv) (hpc : s.PC.toNat ≤ 0x1000)
    (h : exec i s = .next t) : t.Inv := by
  obtain ⟨e, -, rfl⟩ | hc := exec_cases h
  · exact ⟨hs.memory, hs.index, hs.counter, hs.returns⟩
  · have hloaded := hc.keepsSetup.loaded
    refine ⟨hc.keeps_memory hs.memory, ?_, ?_, ?_⟩ <;> rw [hloaded] <;> intro hl
    · exact hc.keeps_index (hs.index hl)
    · exact hc.counter_le hpc (hs.returns hl)
    · exact hc.keeps_returns hpc (hs.returns hl)

/-! ### The transactions -/

theorem State.Fetches.advance_le {s : State} (h : s.Fetches) : (s.PC + 2).toNat ≤ 0x1000 := by
  have hbound := h.bound
  have hadd := toNat_add_two_le s.PC
  omega

theorem State.Inv.supplied {s s1 : State} (hs : s.Inv) (ha : s.Accepts s1) : s1.Inv := by
  rw [accepts_frame ha]
  exact ⟨hs.memory, hs.index, hs.counter, hs.returns⟩

/-- A step that executes no instruction moves PC at most by the advance of a fetch that passed its checks (R125). -/
theorem State.Idles.keepsInv {s t : State} (h : s.Idles t) (hs : s.Inv) : t.Inv := by
  obtain ⟨V, W, PC, st, rd, hPC, rfl⟩ := h
  refine ⟨hs.memory, hs.index, ?_, hs.returns⟩
  obtain rfl | ⟨hf, rfl⟩ := hPC
  · exact hs.counter
  · exact fun _ => hf.advance_le.trans (by decide)

theorem stepSupplied_keepsInv {s t : State} (hs : s.Inv) (h : stepSupplied s = .next t) : t.Inv := by
  obtain ⟨i, hf, -, hx⟩ | hidle := stepSupplied_next h
  · have hadvance : s.advance.Inv :=
      ⟨hs.memory, hs.index, fun _ => hf.advance_le.trans (by decide), hs.returns⟩
    exact exec_keepsInv hadvance hf.advance_le hx
  · exact hidle.keepsInv hs

/-- A load that fits establishes the invariant anew, one that does not fit changes nothing it speaks of (R351, R352). -/
theorem load_keepsInv {s : State} (rom : List Byte) (hs : s.Inv) : (load rom s).Inv := by
  by_cases hfit : rom.length ≤ 3584
  · rw [load_fits hfit]
    have hend : progBase + rom.length ≤ 4096 := by rw [progBase]; omega
    have hindex : (0 : Word).toNat ≤ 0xFFF := by decide
    have hcounter : (0x200 : Word).toNat ≤ 0x10FE := by decide
    exact ⟨Memory.ofBytes_wf hend, fun _ => hindex, fun _ => hcounter, fun _ k hk => absurd hk (Nat.not_lt_zero k)⟩
  · rw [load_oversize (Nat.lt_of_not_le hfit)]
    exact ⟨hs.memory, hs.index, hs.counter, hs.returns⟩

end Sys2Proof.Machine

open Sys2Proof Sys2Proof.Machine

/-- Settles O55: the values are those written in State.reset, and the font reads through the empty memory. -/
theorem resetHoldsTheStatedValues : Obligations.ResetHoldsTheStatedValues := by
  refine ⟨rfl, rfl, fun r => ?_, rfl, rfl, rfl, rfl, rfl, fun px py => ?_, readByte_reset_font⟩
  · exact Vector.getElem_replicate r.isLt
  · simp only [State.reset, Fin.getElem_fin, Vector.getElem_replicate]

/-- Settles O57: no byte is listed and no stack slot is in use. -/
theorem resetMeetsTheInvariant : Obligations.ResetMeetsTheInvariant where
  memory := ⟨.nil, List.forall_mem_nil _⟩
  index _ := by decide
  counter _ := by decide
  returns _ k hk := absurd hk (Nat.not_lt_zero k)

/-- Settles O58, by the three transactions: the step engine by its one instruction, a load, and a timer tick, which
writes nothing the invariant speaks of. -/
theorem everyStepKeepsMachineBounds : Obligations.EveryStepKeepsMachineBounds := by
  intro s t hs h
  obtain ⟨s1, ha, hr⟩ | ⟨rom, rest, -, hr⟩ | ⟨rest, -, hr⟩ := step_cases s <;> rw [hr] at h
  · exact stepSupplied_keepsInv (hs.supplied ha) h
  · cases next_inj h
    exact load_keepsInv rom ⟨hs.memory, hs.index, hs.counter, hs.returns⟩
  · cases next_inj h
    exact ⟨hs.memory, hs.index, hs.counter, hs.returns⟩
end

section
/-! SUPPORT. What a read of memory depends on, what a completed Fx55 and a load leave to read (20_memory.md R62, R64,
R73), and the load as a transaction of the step. The obligations of 20_memory.md follow. -/

namespace Sys2Proof.Machine

/-- A read depends on the memory, its draw, the parameters and the load flag alone (R11). -/
theorem State.readByte_congr {s t : State} (hM : t.M = s.M) (hcfg : t.cfg = s.cfg) (hloaded : t.loaded = s.loaded)
    (hdraw : t.memDraw = s.memDraw) (a : Nat) : t.readByte a = s.readByte a := by
  simp only [State.readByte, State.image, hM, hcfg, hloaded, hdraw]

theorem State.KeepsSetup.readByte {s t : State} (h : s.KeepsSetup t) (hM : t.M = s.M) (a : Nat) :
    t.readByte a = s.readByte a :=
  State.readByte_congr hM h.cfg h.loaded h.memDraw a

@[simp] theorem State.readByte_output (s : State) (st : Status) (rd : Bool) (a : Nat) :
    (s.output st rd).readByte a = s.readByte a := rfl

/-- When Fx55 reports Ok, V[j] reads back at I + j for each register it names (R224). -/
theorem readByte_of_storeRegs_ok {x : Reg} {s t : State} (h : exec (.storeRegs x) s = .next t) (hok : t.status = .ok)
    {j : Nat} (hj : j ≤ x.val) : t.readByte (s.I.toNat + j) = s.V[j] := by
  obtain ⟨e, -, rfl⟩ | ⟨-, rfl⟩ := exec_cases h
  · cases hok
  · have hlen : j < (s.valuesUpTo x).length := by rw [length_valuesUpTo]; omega
    rw [State.readByte_output, State.readByte_writeBytes, dif_pos (by omega)]
    simp only [Nat.add_sub_cancel_left, getElem_valuesUpTo]

/-- The value of the word at PC: the lower address holds the high byte (R63). -/
theorem State.wordAtPC_toNat (s : State) :
    s.wordAtPC.toNat = (s.readByte s.PC.toNat).toNat * 256 + (s.readByte (s.PC.toNat + 1)).toNat := by
  rw [← fetchedWord_eq, State.fetchedWord, wordOfBytes_toNat]

/-- A step whose transaction is a load runs that load (R120). -/
theorem step_of_load {s : State} {rom : List Byte} {rest : List Transaction} (hp : s.pending = .load rom :: rest) :
    step s = .next (load rom { s with pending := rest }) := by
  rw [step, serve, hp]

theorem fontByte_outside {cfg : Config} {a : Nat} (h : ¬ (cfg.fontBase.val ≤ a ∧ a < cfg.fontBase.val + 80)) :
    fontByte cfg a = none := by
  rw [fontByte, dif_neg h]

end Sys2Proof.Machine

open Sys2Proof Sys2Proof.Machine

/-- Settles O21: by the frame the instruction leaves M, and with the setup kept every read stays. -/
theorem memoryChangesOnlyByStores : Obligations.MemoryChangesOnlyByStores := by
  intro i s t h hbcd hstore a
  obtain hM | ⟨x, rfl⟩ | ⟨x, rfl⟩ := (exec_frame h).memory
  · exact (exec_keepsSetup h).readByte hM a
  · exact absurd rfl (hbcd x)
  · exact absurd rfl (hstore x)

/-- Settles O44: the two bytes of the word are the stored V[k] and V[k+1]. -/
theorem storedWordIsFetchedLater : Obligations.StoredWordIsFetchedLater := by
  intro x k s t u hk h hok hkx hM hcfg hloaded hdraw hpc
  have hread := State.readByte_congr hM hcfg hloaded hdraw
  have hhigh : t.readByte (s.I.toNat + k.val) = s.V[k] := readByte_of_storeRegs_ok h hok (Nat.le_of_lt hkx)
  have hlow : t.readByte (s.I.toNat + (k.val + 1)) = s.V[k.val + 1] := readByte_of_storeRegs_ok h hok hkx
  rw [State.wordAtPC_toNat, hpc, hread, hread, hhigh, Nat.add_assoc, hlow]

/-- Settles O53: a load that fits writes no slot, takes the next draw, and lists the ROM alone. -/
theorem loadLeavesTheRestADraw : Obligations.LoadLeavesTheRestADraw := by
  intro s t rom rest hp hfit h
  rw [step_of_load hp] at h
  obtain rfl := next_inj h
  have hdraw : (load rom { s with pending := rest }).memDraw = s.memDraw + 1 := by rw [load_fits hfit]
  refine ⟨by rw [load_fits hfit], hdraw, fun a hrom hfont => ?_⟩
  rw [readByte_load_other hfit a hrom, fontByte_outside hfont, Option.getD_none, hdraw]
end

section
/-! SUPPORT. The decoder and the encoder undo each other, and the opcode map, which is written apart from both, has the
words of the encoder and no word twice (30_encoding.md R92, R94 to R97). The obligations of 30_encoding.md follow. -/

namespace Sys2Proof

/-! ### Decoding an encoded instruction -/

/-- n1 finds the family and, where the family has several operations, n4 or kk the operation (R95, R96). -/
theorem decodeWord_encode (i : Instr) : decodeWord (encode i) = some i := by
  cases i with
  | cls | ret => rfl
  | jp | call | ldI | jpV0 | seImm | sneImm | ldImm | addImm | rnd => simp [encode, decodeWord]
  | seReg | sneReg | drw => simp [encode, decodeWord]
  | ldReg | orReg | andReg | xorReg | addReg | subReg | shr | subnReg | shl => simp [encode, decodeWord, decodeEight]
  | skp | sknp => simp [encode, decodeWord, decodeKeys]
  | ldFromDT | ldKey | ldToDT | ldToST | addI | ldFont | ldBcd | storeRegs | loadRegs =>
    simp [encode, decodeWord, decodeMisc]

/-- The same in memory: the two bytes are read and the bytes after them are left (R63, R90). -/
theorem decodeBytes_encodeBytes_append (i : Instr) (rest : List Byte) :
    decodeBytes (encodeBytes i ++ rest) = .ok (i, rest) := by
  simp only [encodeBytes, List.cons_append, List.nil_append, decodeBytes, wordOfBytes_bytesOfWord, decodeWord_encode]

/-! ### Encoding a decoded word -/

section
variable {w : Word} {op n : BitVec 4} {kk : Byte}

theorem formNNN_of_n1 (hop : n1 w = op) : formNNN op (fieldNNN w) = w := hop ▸ formNNN_fields w

theorem formXKK_of_n1_kk (hop : n1 w = op) (hkk : fieldKK w = kk) : formXKK op (fieldX w) kk = w :=
  hop ▸ hkk ▸ formXKK_fields w

theorem formXYN_of_n1_n4 (hop : n1 w = op) (hn : n4 w = n) : formXYN op (fieldX w) (fieldY w) n = w :=
  hop ▸ hn ▸ formXYN_fields w

end

section
variable {w : Word} {i : Instr}

theorem encode_of_decodeZero (h : decodeZero w = some i) : encode i = w := by
  unfold decodeZero at h
  split at h
  · next hw => cases h; exact hw.symm
  · split at h
    · next hw => cases h; exact hw.symm
    · cases h

theorem encode_of_decodeEight (hop : n1 w = 0x8#4) (h : decodeEight w = some i) : encode i = w := by
  unfold decodeEight at h
  split at h <;> cases h <;> exact formXYN_of_n1_n4 hop ‹_›

theorem encode_of_decodeKeys (hop : n1 w = 0xE#4) (h : decodeKeys w = some i) : encode i = w := by
  unfold decodeKeys at h
  split at h <;> cases h <;> exact formXKK_of_n1_kk hop ‹_›

theorem encode_of_decodeMisc (hop : n1 w = 0xF#4) (h : decodeMisc w = some i) : encode i = w := by
  unfold decodeMisc at h
  split at h <;> cases h <;> exact formXKK_of_n1_kk hop ‹_›

/-- The operands are the word's own fields, and the bits they leave out are the ones the decoder compared. -/
theorem encode_of_decodeWord (h : decodeWord w = some i) : encode i = w := by
  unfold decodeWord at h
  split at h
  -- `h_1` to `h_16` are the families 0x0 to 0xF
  case h_1 => exact encode_of_decodeZero h
  case h_2 hop | h_3 hop | h_11 hop | h_12 hop => cases h; exact formNNN_of_n1 hop
  case h_4 hop | h_5 hop | h_7 hop | h_8 hop | h_13 hop => cases h; exact formXKK_of_n1_kk hop rfl
  case h_6 hop | h_10 hop =>
    split at h
    · next hn => cases h; exact formXYN_of_n1_n4 hop hn
    · cases h
  case h_9 hop => exact encode_of_decodeEight hop h
  case h_14 hop => cases h; exact formXYN_of_n1_n4 hop rfl
  case h_15 hop => exact encode_of_decodeKeys hop h
  case h_16 hop => exact encode_of_decodeMisc hop h
  case h_17 => cases h

end

/-! ### What a row of the opcode map fixes -/

section
variable {w : Word} {p q : Pattern}

theorem Pattern.selects_iff : p.selects w = true ↔ w &&& p.mask = p.pattern := beq_iff_eq

/-- A field that lies inside the mask is the pattern's field. -/
theorem Pattern.selects_field (h : p.selects w = true) {start len : Nat}
    (hmask : p.mask.extractLsb' start len = BitVec.allOnes len) :
    w.extractLsb' start len = p.pattern.extractLsb' start len := by
  rw [← Pattern.selects_iff.mp h, BitVec.extractLsb'_and, hmask, BitVec.and_allOnes]

/-- Two rows that select one word agree on the bits both fix. -/
theorem Pattern.selects_agree (hp : p.selects w = true) (hq : q.selects w = true) :
    p.pattern &&& q.mask = q.pattern &&& p.mask := by
  rw [← Pattern.selects_iff.mp hp, ← Pattern.selects_iff.mp hq, BitVec.and_assoc, BitVec.and_assoc,
    BitVec.and_comm p.mask]

end

/-- Any two rows differ on a bit both fix (R97). -/
theorem opcodeRows_agree : ∀ p ∈ opcodeRows, ∀ q ∈ opcodeRows,
    p.pattern &&& q.mask = q.pattern &&& p.mask → p = q := by decide

theorem opcodeRows_fix_n1 : ∀ p ∈ opcodeRows, n1 p.mask = BitVec.allOnes 4 := by decide

theorem opcodeRows_fix_word : ∀ p ∈ opcodeRows, n1 p.pattern = 0x0#4 → p.mask = BitVec.allOnes 16 := by decide

theorem opcodeRows_fix_n4 : ∀ p ∈ opcodeRows, n1 p.pattern ∈ [0x5#4, 0x8#4, 0x9#4] →
    n4 p.mask = BitVec.allOnes 4 := by decide

theorem opcodeRows_fix_kk : ∀ p ∈ opcodeRows, n1 p.pattern ∈ [0xE#4, 0xF#4] →
    fieldKK p.mask = BitVec.allOnes 8 := by decide

theorem opcodeRows_decode : ∀ p ∈ opcodeRows, (decodeWord p.pattern).isSome := by decide

/-! ### Which words decode -/

section
variable {w v : Word}

theorem decodeEight_isSome_congr (h : n4 w = n4 v) : (decodeEight w).isSome = (decodeEight v).isSome := by
  unfold decodeEight; rw [h]; split <;> rfl

theorem decodeKeys_isSome_congr (h : fieldKK w = fieldKK v) : (decodeKeys w).isSome = (decodeKeys v).isSome := by
  unfold decodeKeys; rw [h]; split <;> rfl

theorem decodeMisc_isSome_congr (h : fieldKK w = fieldKK v) : (decodeMisc w).isSome = (decodeMisc v).isSome := by
  unfold decodeMisc; rw [h]; split <;> rfl

/-- Whether a word decodes depends on n1 and on the bits its family compares: the whole word in family 0, n4 in
families 5, 8 and 9, kk in families E and F (R95, R96). -/
theorem decodeWord_isSome_congr (hop : n1 w = n1 v) (hword : n1 v = 0x0#4 → w = v)
    (hn4 : n1 v ∈ [0x5#4, 0x8#4, 0x9#4] → n4 w = n4 v) (hkk : n1 v ∈ [0xE#4, 0xF#4] → fieldKK w = fieldKK v) :
    (decodeWord w).isSome = (decodeWord v).isSome := by
  unfold decodeWord
  rw [hop]
  split
  case h_1 hv => rw [hword hv]
  case h_6 hv | h_10 hv => rw [hn4 (by simp [hv])]; split <;> rfl
  case h_9 hv => exact decodeEight_isSome_congr (hn4 (by simp [hv]))
  case h_15 hv => exact decodeKeys_isSome_congr (hkk (by simp [hv]))
  case h_16 hv => exact decodeMisc_isSome_congr (hkk (by simp [hv]))
  all_goals rfl

end

/-- A word that a row selects decodes, as the row's pattern does: the row fixes every bit its family compares. -/
theorem decodes_of_selects {w : Word} {p : Pattern} (hp : p ∈ opcodeRows) (h : p.selects w = true) :
    ∃ i, decodeWord w = some i := by
  rw [← Option.isSome_iff_exists, decodeWord_isSome_congr (v := p.pattern)]
  · exact opcodeRows_decode p hp
  · exact Pattern.selects_field h (opcodeRows_fix_n1 p hp)
  · intro hv
    rw [← Pattern.selects_iff.mp h, opcodeRows_fix_word p hp hv, BitVec.and_allOnes]
  · exact fun hv => Pattern.selects_field h (opcodeRows_fix_n4 p hp hv)
  · exact fun hv => Pattern.selects_field h (opcodeRows_fix_kk p hp hv)

open Laws.EncodedWordLegal in
/-- The word of every instruction is legal (R94). -/
theorem legalWord_encode (i : Instr) : legalWord (encode i) = true := by
  cases i
  exacts [cls, ret, jp _, call _, seImm _ _, sneImm _ _, seReg _ _, ldImm _ _, addImm _ _, ldReg _ _, orReg _ _,
    andReg _ _, xorReg _ _, addReg _ _, subReg _ _, shr _ _, subnReg _ _, shl _ _, sneReg _ _, ldI _, jpV0 _, rnd _ _,
    drw _ _ _, skp _, sknp _, ldFromDT _, ldKey _, ldToDT _, ldToST _, addI _, ldFont _, ldBcd _, storeRegs _,
    loadRegs _]

/-- The legal words are those that decode (R97). -/
theorem legalWord_iff_decodes (w : Word) : legalWord w = true ↔ ∃ i, decodeWord w = some i := by
  constructor
  · intro h
    obtain ⟨p, hp, hsel⟩ := List.any_eq_true.mp h
    exact decodes_of_selects hp hsel
  · rintro ⟨i, h⟩
    rw [← encode_of_decodeWord h]
    exact legalWord_encode i

theorem decodeWord_of_not_legal {w : Word} (h : legalWord w = false) : decodeWord w = none := by
  rw [Option.eq_none_iff_forall_ne_some]
  intro i hi
  rw [(legalWord_iff_decodes w).mpr ⟨i, hi⟩] at h
  cases h

end Sys2Proof

namespace Sys2Proof.Machine

/-- A step that fetches runs the word at PC on the state with its inputs and PC advanced (R122, R126). -/
theorem step_of_fetches {s s1 : State} (ha : s.Accepts s1) (hf : s.Fetches) :
    step s = runWord s.wordAtPC { s1 with PC := s.PC + 2 } := by
  obtain ⟨hloaded, hrunning, hbound, hfloor⟩ := (fetches_of_accepts ha).mpr hf
  rw [step_of_accepts ha, ← advance_of_accepts ha, ← wordAtPC_of_accepts ha, ← fetchedWord_eq, stepSupplied,
    if_pos hloaded, hrunning]
  show runNext s1 = _
  rw [runNext, checkFetch_ok hbound hfloor, attempt_ok]

theorem runWord_of_not_legal {w : Word} (h : legalWord w = false) (s : State) :
    runWord w s = .next (s.output (.fault (.unknownOpcode w)) false) := by
  rw [runWord, decodeWord_of_not_legal h]; rfl

end Sys2Proof.Machine

open Sys2Proof Sys2Proof.Machine

/-- Settles O1, by the decoder on each encoded format, as a word and as two bytes. -/
theorem decodeOfEncodeIsTheInstruction : Obligations.DecodeOfEncodeIsTheInstruction :=
  fun i rest => ⟨decodeWord_encode i, decodeBytes_encodeBytes_append i rest⟩

/-- Settles O2, by the families of the decoder. -/
theorem encodeOfDecodeIsTheWord : Obligations.EncodeOfDecodeIsTheWord := fun _ _ => encode_of_decodeWord

/-- Settles O3: a row fixes the bits its family compares, and a word that decodes is an encoded instruction. -/
theorem decoderAcceptsExactlyTheLegalWords : Obligations.DecoderAcceptsExactlyTheLegalWords :=
  legalWord_iff_decodes

/-- Settles O4: two rows that select one word agree where both masks are set, and no two rows do. -/
theorem noWordMatchesTwoPatterns : Obligations.NoWordMatchesTwoPatterns :=
  fun _ p q hp hq hpw hqw => opcodeRows_agree p hp q hq (Pattern.selects_agree hpw hqw)

/-- Settles O5, by running the decoder on each word. -/
theorem wordsWrittenOutDecode : Obligations.WordsWrittenOutDecode := by
  unfold Obligations.WordsWrittenOutDecode
  decide

/-- Settles O7: the word does not decode, so the error is taken on the state its fetch left. -/
theorem unknownWordKeepsOnlyTheAdvance : Obligations.UnknownWordKeepsOnlyTheAdvance := by
  intro s s1 ha hf hillegal
  rw [step_of_fetches ha hf, runWord_of_not_legal hillegal]
  rfl
end

section
/-! SUPPORT. How one step ends: refused before its fetch, resumed from a wait, failed after its fetch, or with its
instruction completed; and what each end reports (40_engine.md R122 to R131). The obligations of the step engine
follow. -/

namespace Sys2Proof.Machine

/-! ### The step engine, case by case -/

theorem stepSupplied_of_unloaded {s : State} (h : s.loaded = false) : stepSupplied s = raise .notLoaded s := by
  simp [stepSupplied, h]

theorem stepSupplied_of_waiting {s : State} {x : Reg} (hl : s.loaded = true) (hw : s.W = some x) :
    stepSupplied s = resumeWait x s := by
  simp [stepSupplied, hl, hw]

theorem stepSupplied_of_running {s : State} (hl : s.loaded = true) (hw : s.W = none) :
    stepSupplied s = runNext s := by
  simp [stepSupplied, hl, hw]

theorem resumeWait_of_key {x k : Reg} {s : State} (h : lowestKey s.keys = some k) :
    resumeWait x s = .next (((s.setV x (keyCode k)).setW none).output .ok false) := by
  rw [resumeWait, h]; rfl

theorem resumeWait_of_no_key {x : Reg} {s : State} (h : lowestKey s.keys = none) :
    resumeWait x s = .next (s.output .awaitingKey false) := by
  rw [resumeWait, h]; rfl

/-- A step in a wait ends it with the lowest pressed key, or goes on waiting (R124). -/
theorem resumeWait_next {x : Reg} {s t : State} (h : resumeWait x s = .next t) :
    (∃ k, t = ((s.setV x (keyCode k)).setW none).output .ok false) ∨ t = s.output .awaitingKey false := by
  cases hk : lowestKey s.keys with
  | some k => rw [resumeWait_of_key hk] at h; exact .inl ⟨k, next_inj h⟩
  | none => rw [resumeWait_of_no_key hk] at h; exact .inr (next_inj h)

/-! ### Every transaction answers a next state -/

/-- An operation that may raise answers a next state when its continuation does: a raised error is a status (R131). -/
theorem attempt_answers {α : Type} (r : Except Fault α) (s : State) {k : α → Result} (hk : ∀ a, ∃ t, k a = .next t) :
    ∃ t, attempt r s k = .next t := by
  cases r with
  | error e => exact ⟨_, rfl⟩
  | ok a => exact hk a

theorem storeAtI_answers (bs : List Byte) (s : State) : ∃ t, storeAtI bs s = .next t :=
  attempt_answers _ s fun _ => attempt_answers _ s fun _ => ⟨_, rfl⟩

/-- Every instruction answers a next state (R131). -/
theorem exec_answers (i : Instr) (s : State) : ∃ t, exec i s = .next t := by
  cases i with
  | ret | call | addReg | subReg | shr | subnReg | shl | skp | sknp | loadRegs =>
    exact attempt_answers _ s fun _ => ⟨_, rfl⟩
  | ldBcd | storeRegs => exact storeAtI_answers _ s
  | addI x => rw [exec, execAddI]; split <;> exact ⟨_, rfl⟩
  | ldKey x => rw [exec, execLdKey]; split <;> exact ⟨_, rfl⟩
  | cls | jp | seImm | sneImm | seReg | sneReg | ldImm | addImm | ldReg | orReg | andReg | xorReg | ldI | jpV0 | rnd
  | drw | ldFromDT | ldToDT | ldToST | ldFont => exact ⟨_, rfl⟩

theorem resumeWait_answers (x : Reg) (s : State) : ∃ t, resumeWait x s = .next t := by
  cases hk : lowestKey s.keys with
  | some k => exact ⟨_, resumeWait_of_key hk⟩
  | none => exact ⟨_, resumeWait_of_no_key hk⟩

theorem runWord_answers (w : Word) (s : State) : ∃ t, runWord w s = .next t := by
  obtain ⟨i, -, hr⟩ | ⟨-, hr⟩ := runWord_cases w s <;> rw [hr]
  · exact exec_answers i s
  · exact ⟨_, rfl⟩

/-- The step engine answers a next state, whether it is refused, waits, fails a fetch check or runs a word (R131). -/
theorem stepSupplied_answers (s : State) : ∃ t, stepSupplied s = .next t := by
  cases hl : s.loaded with
  | false => exact ⟨_, stepSupplied_of_unloaded hl⟩
  | true =>
    cases hw : s.W with
    | some x => rw [stepSupplied_of_waiting hl hw]; exact resumeWait_answers x s
    | none => rw [stepSupplied_of_running hl hw]; exact attempt_answers _ s fun _ => runWord_answers _ _

/-! ### What an instruction reports -/

/-- The instructions after which the host is asked to redraw (R130). -/
def Draws : Instr → Prop
  | .cls | .drw _ _ _ => True
  | _ => False

/-- A word decodes to 00E0 or to a Dxyn exactly when it decodes to an instruction that draws (R130). -/
theorem decodes_to_draw_iff (w : Word) :
    (decodeWord w = some .cls ∨ ∃ x y n, decodeWord w = some (.drw x y n)) ↔ ∃ i, decodeWord w = some i ∧ Draws i := by
  constructor
  · rintro (h | ⟨x, y, n, h⟩) <;> exact ⟨_, h, trivial⟩
  · rintro ⟨i, h, hi⟩
    cases i with
    | cls => exact .inl h
    | drw x y n => exact .inr ⟨x, y, n, h⟩
    | _ => exact hi.elim

theorem drawStatus_ne_fault (o : Option Nat) (e : Fault) : drawStatus o ≠ .fault e := by
  cases o <;> nofun

theorem drawStatus_ne_awaitingKey (o : Option Nat) : drawStatus o ≠ .awaitingKey := by
  cases o <;> nofun

/-- What an instruction that completed reports (R129, R130), with the wait it leaves (R37). -/
inductive Reports (i : Instr) (s t : State) : Prop
  | drawn (o : Option Nat) (draws : Draws i) (wait : t.W = s.W) (status : t.status = drawStatus o)
      (redraw : t.redraw = true)
  | waiting (x : Reg) (draws : ¬ Draws i) (wait : t.W = some x) (status : t.status = .awaitingKey)
      (redraw : t.redraw = false)
  | done (draws : ¬ Draws i) (wait : t.W = s.W) (status : t.status = .ok) (redraw : t.redraw = false)

theorem Completed.reports {i : Instr} {s t : State} (h : Completed i s t) : Reports i s t := by
  cases i with
  | cls => obtain rfl : t = _ := h; exact .drawn none trivial rfl rfl rfl
  | drw => obtain rfl : t = _ := h; exact .drawn _ trivial (by rw [drawRows_eq]; rfl) rfl rfl
  | ldKey x =>
    obtain ⟨k, -, rfl⟩ | ⟨-, rfl⟩ := h
    · exact .done id rfl rfl rfl
    · exact .waiting x id rfl rfl rfl
  | ret | call | addI => obtain ⟨-, rfl⟩ := h; exact .done id rfl rfl rfl
  | seImm | sneImm | seReg | sneReg => obtain rfl : t = _ := h; split <;> exact .done id rfl rfl rfl
  | skp | sknp => obtain ⟨-, rfl⟩ := h; split <;> exact .done id rfl rfl rfl
  | ldBcd | storeRegs => obtain ⟨-, rfl⟩ := h; exact .done id (by rw [State.writeBytes_eq]; rfl) rfl rfl
  | loadRegs => obtain ⟨-, rfl⟩ := h; exact .done id (by rw [loadInto_eq]; rfl) rfl rfl
  | jp | ldImm | addImm | ldReg | orReg | andReg | xorReg | addReg | subReg | shr | subnReg | shl | ldI | jpV0 | rnd
  | ldFromDT | ldToDT | ldToST | ldFont => obtain rfl : t = _ := h; exact .done id rfl rfl rfl

/-- An instruction that completes, a draw that stopped early included, reports no fault (R127, R129). -/
theorem Completed.no_fault {i : Instr} {s t : State} (h : Completed i s t) (e : Fault) : t.status ≠ .fault e := by
  cases h.reports with
  | drawn o _ _ hst _ => rw [hst]; exact drawStatus_ne_fault o e
  | waiting x _ _ hst _ => rw [hst]; nofun
  | done _ _ hst _ => rw [hst]; nofun

theorem Completed.redraw_iff {i : Instr} {s t : State} (h : Completed i s t) : t.redraw = true ↔ Draws i := by
  cases h.reports with
  | drawn o hd _ _ hr => simp [hr, hd]
  | waiting x hd _ _ hr => simp [hr, hd]
  | done hd _ _ hr => simp [hr, hd]

theorem Completed.awaitingKey_iff {i : Instr} {s t : State} (h : Completed i s t) (hs : s.W = none) :
    t.status = .awaitingKey ↔ t.W ≠ none := by
  cases h.reports with
  | drawn o _ hw hst _ => simp [hst, hw, hs, drawStatus_ne_awaitingKey]
  | waiting x _ hw hst _ => simp [hst, hw]
  | done _ hw hst _ => simp [hst, hw, hs]

/-- 00E0 and Dxyn always complete; any other instruction may fail instead (R127). -/
theorem exec_ends {i : Instr} {s t : State} (h : exec i s = .next t) : (¬ Draws i ∧ Failed s t) ∨ Completed i s t := by
  cases i with
  | cls | drw => exact .inr (next_inj h)
  | _ => exact (exec_cases h).imp_left fun hf => ⟨id, hf⟩

/-! ### How a step ends -/

/-- The errors of a step that come before its fetch completes, and so keep nothing of it (R123, R125, R127). -/
def BeforeFetch : Fault → Prop
  | .notLoaded | .outOfBounds (.fetch _) | .specFault (.fetchBelowProgramSpace _) => True
  | _ => False

theorem BeforeFetch.eq_cases {e : Fault} (h : BeforeFetch e) :
    e = .notLoaded ∨ (∃ pc, e = .outOfBounds (.fetch pc)) ∨ ∃ pc, e = .specFault (.fetchBelowProgramSpace pc) := by
  unfold BeforeFetch at h
  split at h
  · exact .inl rfl
  · exact .inr (.inl ⟨_, rfl⟩)
  · exact .inr (.inr ⟨_, rfl⟩)
  · exact h.elim

/-- What an instruction raises in its own rule comes after the fetch. -/
theorem OwnError.not_beforeFetch {e : Fault} (h : OwnError e) : ¬ BeforeFetch e := by
  intro hb
  obtain rfl | ⟨pc, rfl⟩ | ⟨pc, rfl⟩ := hb.eq_cases <;> exact h

/-- The four ends of a step, from the state that holds its inputs. -/
inductive StepEnds (s t : State) : Prop
  | refused (e : Fault) (before : BeforeFetch e) (unfetched : ¬ s.Fetches) (running : s.loaded = true → s.W = none)
      (eq : t = s.output (.fault e) false)
  | resumed (x : Reg) (waiting : s.W = some x) (eq : resumeWait x s = .next t)
  | failed (e : Fault) (after : ¬ BeforeFetch e) (fetches : s.Fetches)
      (draws : ∀ i, decodeWord s.wordAtPC = some i → ¬ Draws i) (eq : t = s.advance.output (.fault e) false)
  | completed (i : Instr) (fetches : s.Fetches) (decoded : decodeWord s.wordAtPC = some i)
      (done : Completed i s.advance t)

theorem stepSupplied_ends {s t : State} (h : stepSupplied s = .next t) : StepEnds s t := by
  obtain ⟨hl, hr⟩ | ⟨x, -, hw, hr⟩ | ⟨-, hw, hpc, hr⟩ | ⟨-, hw, -, hfloor, hpc, hr⟩ | ⟨hf, hr⟩ :=
    stepSupplied_cases s <;> rw [hr] at h
  · exact .refused .notLoaded trivial (fun f => by cases hl.symm.trans f.loaded) (by simp [hl]) (next_inj h)
  · exact .resumed x hw h
  · exact .refused (.outOfBounds (.fetch _)) trivial (fun f => absurd f.bound (Nat.not_le.mpr hpc))
      (fun _ => hw) (next_inj h)
  · exact .refused (.specFault (.fetchBelowProgramSpace _)) trivial
      (fun f => absurd (f.floor hfloor) (Nat.not_le.mpr hpc)) (fun _ => hw) (next_inj h)
  · obtain ⟨i, hi, hx⟩ | ⟨hnone, hx⟩ := runWord_cases s.wordAtPC s.advance <;> rw [hx] at h
    · obtain ⟨hdraws, e, he, ht⟩ | hc := exec_ends h
      · refine .failed e he.not_beforeFetch hf (fun j hj => ?_) ht
        cases hi.symm.trans hj
        exact hdraws
      · exact .completed i hf hi hc
    · exact .failed _ id hf (fun j hj => by simp [hnone] at hj) (next_inj h)

/-- The commit rule on the step engine (R127). -/
theorem stepSupplied_fault {s t : State} {e : Fault} (h : stepSupplied s = .next t) (he : t.status = .fault e) :
    (BeforeFetch e ∧ t = s.output (.fault e) false) ∨ (¬ BeforeFetch e ∧ t = s.advance.output (.fault e) false) := by
  cases stepSupplied_ends h with
  | refused e' hb _ _ ht => subst ht; cases he; exact .inl ⟨hb, rfl⟩
  | resumed x _ ht => obtain ⟨k, rfl⟩ | rfl := resumeWait_next ht <;> cases he
  | failed e' hb _ _ ht => subst ht; cases he; exact .inr ⟨hb, rfl⟩
  | completed i _ _ hc => exact absurd he (hc.no_fault e)

theorem stepSupplied_redraw_iff {s t : State} (h : stepSupplied s = .next t) :
    t.redraw = true ↔ s.Fetches ∧ ∃ i, decodeWord s.wordAtPC = some i ∧ Draws i := by
  cases stepSupplied_ends h with
  | refused e _ hf _ ht => simp [ht, hf]
  | resumed x hw ht =>
    have hf : ¬ s.Fetches := fun f => by cases hw.symm.trans f.running
    obtain ⟨k, rfl⟩ | rfl := resumeWait_next ht <;> simp [hf]
  | failed e _ _ hd ht => subst ht; exact ⟨nofun, fun ⟨_, i, hi, hdraws⟩ => absurd hdraws (hd i hi)⟩
  | completed i hf hi hc => simp [hc.redraw_iff, hf, hi]

theorem stepSupplied_awaitingKey_iff {s t : State} (h : stepSupplied s = .next t) (hl : s.loaded = true) :
    t.status = .awaitingKey ↔ t.W ≠ none := by
  cases stepSupplied_ends h with
  | refused e _ _ hw ht => simp [ht, hw hl]
  | resumed x hw ht => obtain ⟨k, rfl⟩ | rfl := resumeWait_next ht <;> simp [hw]
  | failed e _ hf _ ht => subst ht; exact ⟨nofun, fun hw => absurd hf.running hw⟩
  | completed i hf _ hc => exact hc.awaitingKey_iff hf.running

end Sys2Proof.Machine

open Sys2Proof Sys2Proof.Machine

/-- Settles O8: the first check that fails ends the step, and a step that passes both fetches. -/
theorem fetchChecksInOrderBeforeAnyEffect : Obligations.FetchChecksInOrderBeforeAnyEffect := by
  intro s s1 ha hl hw
  obtain ⟨hcfg, -, -, -, -, hPC, -, -, -, -, -, hl1, hw1, -⟩ := accepts_fields ha
  have hrun : step s = runNext s1 :=
    (step_of_accepts ha).trans (stepSupplied_of_running (hl1.trans hl) (hw1.trans hw))
  refine ⟨fun hbound => ?_, fun hbound hfloor hbelow => ?_, fun hbound hfloor => ?_⟩
  · rw [← hPC] at hbound ⊢
    rw [hrun, runNext, checkFetch_bound hbound]; rfl
  · rw [← hPC] at hbound hbelow ⊢
    rw [← hcfg] at hfloor
    rw [hrun, runNext, checkFetch_floor hbound hfloor hbelow]; rfl
  · exact step_of_fetches ha ⟨hl, hw, hbound, hfloor⟩

/-- Settles O11, by the instructions and the three transactions. -/
theorem everyStepAnswersANextState : Obligations.EveryStepAnswersANextState := by
  refine ⟨exec_answers, fun s => ?_⟩
  obtain ⟨s1, -, hs⟩ | ⟨rom, rest, -, hs⟩ | ⟨rest, -, hs⟩ := step_cases s <;> rw [hs]
  · exact stepSupplied_answers s1
  · exact ⟨_, rfl⟩
  · exact ⟨_, rfl⟩

/-- Settles O12: an instruction that completes reports no fault, and a step fails either before its fetch or with the
advance of PC alone. -/
theorem faultKeepsOnlyTheFetch : Obligations.FaultKeepsOnlyTheFetch := by
  refine ⟨fun i s t e h he => ?_, fun s s1 t e ha h he => ?_, fun x y n s t e h => ?_⟩
  · obtain ⟨e', -, rfl⟩ | hc := exec_cases h
    · cases he; rfl
    · exact absurd he (hc.no_fault e)
  · rw [step_of_accepts ha] at h
    obtain ⟨hb, ht⟩ | ⟨hb, ht⟩ := stepSupplied_fault h he
    · obtain rfl | ⟨pc, rfl⟩ | ⟨pc, rfl⟩ := hb.eq_cases <;> exact ht
    · rw [advance_of_accepts ha] at ht
      split
      · exact absurd trivial hb
      · exact absurd trivial hb
      · exact absurd trivial hb
      · exact ht
  · have hc : Completed (.drw x y n) s t := next_inj h
    exact hc.no_fault e

/-- Settles O13, by the four ends of a step. -/
theorem redrawExactlyAfterClearOrDraw : Obligations.RedrawExactlyAfterClearOrDraw := by
  intro s s1 t ha h
  rw [step_of_accepts ha] at h
  rw [stepSupplied_redraw_iff h, decodes_to_draw_iff, fetches_of_accepts ha, wordAtPC_of_accepts ha]

/-- Settles O14, by the four ends of a step. -/
theorem awaitingKeyExactlyWhileWaiting : Obligations.AwaitingKeyExactlyWhileWaiting := by
  intro s s1 t ha hl h
  obtain ⟨-, -, -, -, -, -, -, -, -, -, -, hl1, -⟩ := accepts_fields ha
  rw [step_of_accepts ha] at h
  exact stepSupplied_awaitingKey_iff h (hl1.trans hl)

/-- Settles O6: the word a step fetches runs as the instruction it decodes to. -/
theorem stepRunsTheDecodedInstruction : Obligations.StepRunsTheDecodedInstruction := by
  intro s s1 i ha hf hi
  rw [step_of_fetches ha hf, runWord, hi]

/-- Settles O9: the load flag is checked before anything else. -/
theorem stepBeforeLoadIsRefused : Obligations.StepBeforeLoadIsRefused := by
  intro s s1 ha hl
  obtain ⟨-, -, -, -, -, -, -, -, -, -, -, hl1, -⟩ := accepts_fields ha
  rw [step_of_accepts ha, stepSupplied_of_unloaded (hl1.trans hl)]; rfl

/-- Settles O10, by the two ends of a step in a wait. -/
theorem waitingStepTakesTheLowestKey : Obligations.WaitingStepTakesTheLowestKey := by
  intro s s1 x ha hl hw
  obtain ⟨-, -, -, -, -, -, -, -, -, -, -, hl1, hw1, -⟩ := accepts_fields ha
  rw [step_of_accepts ha, stepSupplied_of_waiting (hl1.trans hl) (hw1.trans hw)]
  refine ⟨fun k hk hlt => ?_, fun hnone => ?_⟩
  · exact resumeWait_of_key (lowestKey_eq_some.mpr ⟨hk, hlt⟩)
  · exact resumeWait_of_no_key (lowestKey_eq_none.mpr hnone)
end

section
/-! SUPPORT. What a step's inputs, the key vector and the random byte (10_state.md R35), can reach: replacing them
before an instruction that does not read them replaces them after it and changes nothing else. The obligation on the
random byte follows (40_engine.md R121). -/

namespace Sys2Proof.Machine

/-- The answer with the inputs of its next state replaced. -/
def supplyResult (K : Keys) (r : Byte) : Result → Result
  | .next s => .next (s.supply K r)
  | .fault e => .fault e
  | .refused e => .refused e

variable (K : Keys) (r : Byte)

theorem attempt_supply {α : Type} (q : Except Fault α) (s : State) {k k' : α → Result}
    (hk : ∀ a, k' a = supplyResult K r (k a)) :
    attempt q (s.supply K r) k' = supplyResult K r (attempt q s k) := by
  cases q with
  | error e => rfl
  | ok a => exact hk a

theorem skipIf_supply (c : Bool) (s : State) : skipIf c (s.supply K r) = supplyResult K r (skipIf c s) := by
  cases c <;> rfl

theorem writeBytes_supply (a : Nat) (bs : List Byte) (s : State) :
    (s.supply K r).writeBytes a bs = (s.writeBytes a bs).supply K r := by
  induction bs generalizing a s with
  | nil => rfl
  | cons b bs ih => exact ih (a + 1) (s.writeByte a b)

theorem storeAtI_supply (bs : List Byte) (s : State) :
    storeAtI bs (s.supply K r) = supplyResult K r (storeAtI bs s) :=
  attempt_supply K r _ s fun _ => attempt_supply K r _ s fun _ =>
    congrArg complete (writeBytes_supply K r s.I.toNat bs s)

theorem loadInto_supply (rs : List Reg) (s : State) :
    loadInto rs (s.supply K r) = (loadInto rs s).supply K r := by
  induction rs generalizing s with
  | nil => rfl
  | cons q rs ih => exact ih (s.setV q (s.readByte (s.indexed q.val)))

theorem drawPixel_supply (px : Fin 64) (py : Fin 32) (s : State) :
    drawPixel px py (s.supply K r) = (drawPixel px py s).supply K r := by
  rw [drawPixel, drawPixel, show (s.supply K r).pixel px py = s.pixel px py from rfl]
  split <;> rfl

theorem drawColumns_supply (b vx : Byte) (py : Fin 32) (cols : List Nat) (s : State) :
    drawColumns b vx py cols (s.supply K r) = (drawColumns b vx py cols s).supply K r := by
  induction cols generalizing s with
  | nil => rfl
  | cons c cs ih =>
    rw [drawColumns, drawColumns, drawPixel_supply, ← ih]
    split <;> rfl

theorem drawRows_supply (vx vy : Byte) (k row : Nat) (s : State) :
    drawRows vx vy k row (s.supply K r) =
      ((drawRows vx vy k row s).1.supply K r, (drawRows vx vy k row s).2) := by
  induction k generalizing row s with
  | zero => rfl
  | succ k ih =>
    rw [drawRows, drawRows, show (s.supply K r).indexed row = s.indexed row from rfl]
    split
    · rfl
    · rw [← ih, ← drawColumns_supply]; rfl

/-- NONINTERFERENCE OF THE INPUTS: but for Cxkk, which reads the random byte, and Ex9E, ExA1 and Fx0A, which read the
key vector, an instruction does the same whatever the inputs (R121, R324). -/
theorem exec_supply {i : Instr} {s : State} (hrand : (∃ x kk, i = .rnd x kk) → r = s.rand)
    (hkeys : (∃ x, i = .skp x ∨ i = .sknp x ∨ i = .ldKey x) → K = s.keys) :
    exec i (s.supply K r) = supplyResult K r (exec i s) := by
  cases i with
  | rnd x kk => cases hrand ⟨x, kk, rfl⟩; rfl
  | skp x =>
    cases hkeys ⟨x, .inl rfl⟩
    exact attempt_supply _ r _ s fun _ => skipIf_supply ..
  | sknp x =>
    cases hkeys ⟨x, .inr (.inl rfl)⟩
    exact attempt_supply _ r _ s fun _ => skipIf_supply ..
  | ldKey x =>
    cases hkeys ⟨x, .inr (.inr rfl)⟩
    rw [exec, exec, execLdKey, execLdKey, show (s.supply s.keys r).keys = s.keys from rfl]
    split <;> rfl
  | seImm | sneImm | seReg | sneReg => exact skipIf_supply ..
  | ret =>
    by_cases hp : 0 < s.SP.val
    · simp only [exec, execRet, State.pop_ok hp, State.pop_ok (s := s.supply K r) hp, attempt_ok]; rfl
    · simp only [exec, execRet, State.pop_empty hp, State.pop_empty (s := s.supply K r) hp, attempt_error]; rfl
  | call nnn =>
    by_cases hp : s.SP.val < 16
    · simp only [exec, execCall, State.push_ok _ hp, State.push_ok (s := s.supply K r) _ hp, attempt_ok]; rfl
    · simp only [exec, execCall, State.push_full _ hp, State.push_full (s := s.supply K r) _ hp, attempt_error]; rfl
  | addReg | subReg | shr | subnReg | shl => exact attempt_supply K r _ s fun _ => rfl
  | addI x =>
    rw [exec, exec, execAddI, execAddI]
    show (if s.I.toNat + (s.getV x).toNat > 0xFFF then _ else _) = _
    split <;> rfl
  | ldBcd | storeRegs => exact storeAtI_supply ..
  | loadRegs x => exact attempt_supply K r _ s fun _ => congrArg complete (loadInto_supply K r _ s)
  | drw x y n =>
    exact congrArg (fun d : State × Option Nat => finish (drawStatus d.2) true d.1)
      (drawRows_supply K r (s.getV x) (s.getV y) n.val 0 (s.setVF (flag false)))
  | cls | jp | ldImm | addImm | ldReg | orReg | andReg | xorReg | ldI | jpV0 | ldFromDT | ldToDT | ldToST | ldFont =>
    rfl

end Sys2Proof.Machine

open Sys2Proof Sys2Proof.Machine

/-- Settles O37: with the key vector left as it is, the random byte is the only input replaced. -/
theorem randomByteIsReadByRndAlone : Obligations.RandomByteIsReadByRndAlone := by
  intro i s t r hi h
  calc exec i { s with rand := r }
    _ = supplyResult s.keys r (exec i s) := exec_supply s.keys r (fun ⟨x, kk, e⟩ => absurd e (hi x kk)) fun _ => rfl
    _ = .next (t.supply s.keys r) := congrArg (supplyResult s.keys r) h
    _ = .next { t with rand := r } := by rw [← (exec_keepsSetup h).keys]; rfl
end

section
/-! SUPPORT. What the instructions of 41_flow.md answer (R150 to R157): one equation for each way an instruction can
end, from which the obligations on control transfer and skips follow. -/

namespace Sys2Proof.Machine

/-! ### Call and return (R150, R152) -/

theorem exec_call_of_room (nnn : BitVec 12) {s : State} (h : s.SP.val < 16) :
    exec (.call nnn) s =
      .next (((s.setStack (s.S.set s.SP.val s.PC h) ⟨s.SP.val + 1, by omega⟩).setPC
        (addressOf nnn)).output .ok false) := by
  rw [exec, execCall, State.push_ok _ h, attempt_ok, complete_eq]

theorem exec_call_of_full (nnn : BitVec 12) {s : State} (h : s.SP.val = 16) :
    exec (.call nnn) s = .next (s.output (.fault (.stackOverflow 16)) false) := by
  rw [exec, execCall, State.push_full _ (by omega), attempt_error, h]

theorem exec_ret_of_pos {s : State} (h : 0 < s.SP.val) :
    exec .ret s =
      .next (((s.setStack s.S ⟨s.SP.val - 1, by omega⟩).setPC (s.S[s.SP.val - 1]'(by omega))).output .ok false) := by
  rw [exec, execRet, State.pop_ok h, attempt_ok, complete_eq]

theorem exec_ret_of_empty {s : State} (h : s.SP.val = 0) :
    exec .ret s = .next (s.output (.fault (.stackUnderflow 0)) false) := by
  rw [exec, execRet, State.pop_empty (by omega), attempt_error, h]

/-- A return whose top slot is known: that slot goes to PC and is no longer in use. -/
theorem exec_ret_of_top {s : State} {slots : Vector Word 16} {sp : Fin 16} (hS : s.S = slots) (hSP : s.SP = sp.succ) :
    exec .ret s = .next (((s.setStack slots sp.castSucc).setPC slots[sp]).output .ok false) := by
  have hpos : 0 < s.SP.val := by rw [hSP]; exact sp.succ_pos
  subst hS
  simp only [exec_ret_of_pos hpos, hSP, Fin.val_succ, Nat.add_sub_cancel]
  rfl

/-! ### Targets and skips (R151, R153 to R157) -/

theorem addressOf_toNat (nnn : BitVec 12) : (addressOf nnn).toNat = nnn.toNat :=
  BitVec.toNat_setWidth_of_le (by decide)

/-- The sum of Bnnn is at most 0xFFF + 0xFF, so 16 bits hold it (R157). -/
theorem offsetTarget_toNat (nnn : BitVec 12) (s : State) :
    (offsetTarget nnn s).toNat = nnn.toNat + (s.getV 0).toNat := by
  rw [offsetTarget, BitVec.toNat_add, addressOf_toNat, BitVec.toNat_setWidth_of_le (by decide)]
  omega

/-- A skip writes PC alone, whether it skips or not. -/
theorem skipIf_writes_PC (c : Bool) (s : State) :
    skipIf c s = .next { s with PC := if c then s.PC + 2 else s.PC, status := .ok, redraw := false } := by
  cases c <;> rfl

end Sys2Proof.Machine

open Sys2Proof Sys2Proof.Machine

/-- Settles O18, by the counter of the frame. -/
theorem counterChangesOnlyByFlow : Obligations.CounterChangesOnlyByFlow :=
  fun _ _ _ h => (exec_frame h).counter

/-- Settles O27: the slot the call wrote is the one the return reads, and the call wrote no slot below it. -/
theorem returnUndoesCall : Obligations.ReturnUndoesCall := by
  intro nnn s t u hroom hcall hS hSP
  rw [exec_call_of_room nnn hroom] at hcall
  cases next_inj hcall
  refine ⟨_, exec_ret_of_top (sp := ⟨s.SP.val, hroom⟩) hS hSP, ?_, rfl, fun k hk => ?_⟩
  · exact Vector.getElem_set_self hroom
  · exact Vector.getElem_set_ne hroom k.isLt hk.ne'

/-- Settles O23: neither target overflows 16 bits. -/
theorem jumpsReachTheirTargets : Obligations.JumpsReachTheirTargets :=
  fun nnn s => ⟨⟨addressOf nnn, rfl, addressOf_toNat nnn⟩, ⟨offsetTarget nnn s, rfl, offsetTarget_toNat nnn s⟩⟩

/-- Settles O24, by the two ends of a call. -/
theorem callPushesTheReturnAddress : Obligations.CallPushesTheReturnAddress :=
  fun nnn _ => ⟨fun h => by rw [BitVec.ofNat_toNat]; exact exec_call_of_room nnn h, exec_call_of_full nnn⟩

/-- Settles O25, by the two ends of a return. -/
theorem returnPopsTheReturnAddress : Obligations.ReturnPopsTheReturnAddress :=
  fun _ => ⟨exec_ret_of_pos, exec_ret_of_empty⟩

/-- Settles O26: each skip writes PC alone, and its Boolean test says its condition. -/
theorem registerSkipsAddTwoWhenTheirConditionHolds : Obligations.RegisterSkipsAddTwoWhenTheirConditionHolds := by
  intro x y kk s
  refine ⟨?_, ?_, ?_, ?_⟩
  · exact (skipIf_writes_PC _ s).trans (by simp only [beq_iff_eq]; rfl)
  · exact (skipIf_writes_PC _ s).trans (by simp only [bne_iff_ne, ne_eq, ite_not]; rfl)
  · exact (skipIf_writes_PC _ s).trans (by simp only [beq_iff_eq]; rfl)
  · exact (skipIf_writes_PC _ s).trans (by simp only [bne_iff_ne, ne_eq, ite_not]; rfl)
end

section
/-! SUPPORT. What the flag writers of 42_alu.md answer (R186 to R190, R194): the state their statements leave when the
alias check passes, and its fault when it does not. Their results are then byte values written as arithmetic on
natural numbers, and the obligations on register loads and arithmetic follow. -/

namespace Sys2Proof.Machine

/-! ### Byte results and flags as natural numbers -/

theorem byte_add_eq_ofNat (a b : Byte) : a + b = BitVec.ofNat 8 ((a.toNat + b.toNat) % 256) :=
  BitVec.eq_of_toNat_eq (by simp)

theorem byte_sub_eq_ofNat (a b : Byte) : a - b = BitVec.ofNat 8 ((256 + a.toNat - b.toNat) % 256) := by
  apply BitVec.eq_of_toNat_eq
  rw [BitVec.toNat_sub, BitVec.toNat_ofNat]
  omega

theorem byte_shiftRight_eq_ofNat (a : Byte) : a >>> 1 = BitVec.ofNat 8 (a.toNat / 2) := by
  apply BitVec.eq_of_toNat_eq
  rw [BitVec.toNat_ushiftRight, Nat.shiftRight_eq_div_pow, BitVec.toNat_ofNat]
  omega

theorem byte_shiftLeft_eq_ofNat (a : Byte) : a <<< 1 = BitVec.ofNat 8 (2 * a.toNat % 256) := by
  apply BitVec.eq_of_toNat_eq
  rw [BitVec.toNat_shiftLeft, Nat.shiftLeft_eq, BitVec.toNat_ofNat]
  omega

theorem carryFlag_eq_ite (a b : Byte) : carryFlag a b = if a.toNat + b.toNat > 255 then 1 else 0 := by
  simp only [carryFlag, flag, decide_eq_true_eq]

theorem greaterFlag_eq_ite (a b : Byte) : greaterFlag a b = if a.toNat > b.toNat then 1 else 0 := by
  simp only [greaterFlag, flag, decide_eq_true_eq]

theorem lowBitFlag_eq_ofNat (a : Byte) : lowBitFlag a = BitVec.ofNat 8 (a.toNat % 2) := by
  apply BitVec.eq_of_toNat_eq
  have one : (1 : Byte).toNat = 1 := rfl
  rw [lowBitFlag, BitVec.toNat_and, one, Nat.and_one_is_mod, BitVec.toNat_ofNat]
  omega

theorem highBitFlag_eq_ofNat (a : Byte) : highBitFlag a = BitVec.ofNat 8 (a.toNat / 128) := by
  have h : highBitFlag a = lowBitFlag (a >>> 7) := rfl
  rw [h, lowBitFlag_eq_ofNat, BitVec.toNat_ushiftRight, Nat.shiftRight_eq_div_pow, Nat.mod_eq_of_lt (by omega)]

/-! ### The alias check (R194) -/

theorem namesVF_pair_iff {x y : Reg} : (x == vf || y == vf) = true ↔ x = 0xF ∨ y = 0xF := by
  rw [Bool.or_eq_true, beq_iff_eq, beq_iff_eq]

theorem namesVF_pair_eq_false {x y : Reg} (h : x ≠ 0xF ∧ y ≠ 0xF) : (x == vf || y == vf) = false :=
  Bool.eq_false_iff.mpr fun e => (namesVF_pair_iff.mp e).elim h.1 h.2

theorem attempt_alias_passes {s : State} {names : Bool} (i : Instr) (t : State)
    (h : s.cfg.vfAliasMode = .sequential ∨ names = false) :
    attempt (checkVfAlias s.cfg names i) s (fun _ => complete t) = .next (t.output .ok false) := by
  rw [checkVfAlias_ok i h, attempt_ok, complete_eq]

theorem attempt_alias_fails {s : State} {names : Bool} (i : Instr) (k : Unit → Result)
    (hmode : s.cfg.vfAliasMode = .fault) (hnames : names = true) :
    attempt (checkVfAlias s.cfg names i) s k =
      .next (s.output (.fault (.specFault (.vfAlias (encode i)))) false) := by
  rw [checkVfAlias_error i hmode hnames, attempt_error]

end Sys2Proof.Machine

open Sys2Proof Sys2Proof.Machine

/-- Settles O28: each writes V[x] alone, and the 8-bit sum is the sum mod 256. -/
theorem loadsAndImmediateAddWriteVxAlone : Obligations.LoadsAndImmediateAddWriteVxAlone := by
  intro x y kk s
  refine ⟨rfl, ?_, rfl⟩
  rw [← byte_add_eq_ofNat]
  rfl

/-- Settles O29, by the library's bitwise operations on each bit. -/
theorem logicInstructionsWorkBitByBit : Obligations.LogicInstructionsWorkBitByBit :=
  fun x y s => ⟨s.V[x] ||| s.V[y], s.V[x] &&& s.V[y], s.V[x] ^^^ s.V[y], rfl, rfl, rfl, fun b =>
    ⟨BitVec.getElem_or b.isLt, BitVec.getElem_and b.isLt, BitVec.getElem_xor b.isLt⟩⟩

/-- Settles O35, by the library's bitwise and on each bit. -/
theorem randomByteIsMasked : Obligations.RandomByteIsMasked :=
  fun _ kk s => ⟨s.rand &&& kk, rfl, fun b => BitVec.getElem_and b.isLt⟩

/-- Settles O36: the add reads the register that the load wrote. -/
theorem loadThenAddImmediateWraps : Obligations.LoadThenAddImmediateWraps := by
  intro x k1 k2 s
  refine ⟨_, _, rfl, rfl, ?_⟩
  calc (((s.setV x k1).setV x ((s.setV x k1).getV x + k2)).getV x).toNat
      = (k1 + k2).toNat := by rw [State.getV_setV_self, State.getV_setV_self]
    _ = (k1.toNat + k2.toNat) % 256 := BitVec.toNat_add ..

/-- Settles O30: the sum is taken from the registers before the flag write. -/
theorem addSetsCarryThenSum : Obligations.AddSetsCarryThenSum := by
  intro x y s h
  rw [← byte_add_eq_ofNat, ← carryFlag_eq_ite]
  exact attempt_alias_passes (.addReg x y) _ (h.imp_right namesVF_pair_eq_false)

/-- Settles O31: the difference is taken from the registers after the flag write. -/
theorem subtractionsSetStrictFlagThenDifference : Obligations.SubtractionsSetStrictFlagThenDifference := by
  intro x y s h
  have hpass := h.imp_right namesVF_pair_eq_false
  simp only [← byte_sub_eq_ofNat, ← greaterFlag_eq_ite]
  exact ⟨⟨_, rfl, attempt_alias_passes (.subReg x y) _ hpass⟩, ⟨_, rfl, attempt_alias_passes (.subnReg x y) _ hpass⟩⟩

/-- Settles O32: the shift is of V[x] after the flag write, and the alias check looks at x alone. -/
theorem shiftsMoveOneBitIntoVF : Obligations.ShiftsMoveOneBitIntoVF := by
  intro x y s h
  have hpass : s.cfg.vfAliasMode = .sequential ∨ (x == vf) = false := h.imp_right beq_false_of_ne
  simp only [← lowBitFlag_eq_ofNat, ← highBitFlag_eq_ofNat, ← byte_shiftRight_eq_ofNat, ← byte_shiftLeft_eq_ofNat]
  exact ⟨⟨_, rfl, attempt_alias_passes (.shr x y) _ hpass⟩, ⟨_, rfl, attempt_alias_passes (.shl x y) _ hpass⟩⟩

/-- Settles O34: the check comes before the first statement, so its error is the whole effect. -/
theorem vfOperandIsAFaultInFaultMode : Obligations.VfOperandIsAFaultInFaultMode := by
  intro x y s hmode
  refine ⟨fun hxy => ?_, fun hx => ?_⟩
  · have hnames := namesVF_pair_iff.mpr hxy
    exact ⟨attempt_alias_fails (.addReg x y) _ hmode hnames, attempt_alias_fails (.subReg x y) _ hmode hnames,
      attempt_alias_fails (.subnReg x y) _ hmode hnames⟩
  · have hnames := beq_iff_eq.mpr hx
    exact ⟨attempt_alias_fails (.shr x y) _ hmode hnames, attempt_alias_fails (.shl x y) _ hmode hnames⟩

/-- Settles O33: O30, O31 and O32 with VF for x, for y or for both, in the order of the table. A
row needs only what the registers read after the two writes: VF what the last write to it left, V[x] and V[y] nothing
of the flag. -/
theorem vfOperandTableInSequentialMode : Obligations.VfOperandTableInSequentialMode := by
  intro x y s hmode hx hy
  have hadd a b := addSetsCarryThenSum a b s (.inl hmode)
  have hsub a b := subtractionsSetStrictFlagThenDifference a b s (.inl hmode)
  have hshift a b := shiftsMoveOneBitIntoVF a b s (.inl hmode)
  have hfx : 15 ≠ x.val := (Fin.val_ne_of_ne hx).symm
  have hfy : 15 ≠ y.val := (Fin.val_ne_of_ne hy).symm
  refine ⟨⟨_, hadd 0xF y, ?_⟩, ⟨_, hadd x 0xF, ?_, ?_⟩, ⟨_, hadd 0xF 0xF, ?_⟩, ?_, ?_, ?_, fun z => ?_, ?_, ?_, ?_,
    fun z => ?_⟩
  · -- 8Fy4: the sum overwrites the carry
    simp
  · -- 8xF4: the sum is of the old VF
    simp
  · -- 8xF4: the carry stays in VF
    simp [hfx.symm, apply_ite BitVec.toNat]
  · -- 8FF4: VF is added to itself
    simp [Nat.two_mul]
  · -- 8Fy5: V[y] is subtracted from the flag
    obtain ⟨⟨_, rfl, h⟩, -⟩ := hsub 0xF y
    exact ⟨_, h, by simp [hfy, apply_ite BitVec.toNat]⟩
  · -- 8xF5: the flag is subtracted from V[x]
    obtain ⟨⟨_, rfl, h⟩, -⟩ := hsub x 0xF
    exact ⟨_, h, by simp [hfx, apply_ite BitVec.toNat], by simp [hfx.symm, apply_ite BitVec.toNat]⟩
  · -- 8FF5: the flag is subtracted from itself
    obtain ⟨⟨_, rfl, h⟩, -⟩ := hsub 0xF 0xF
    exact ⟨_, h, by simp⟩
  · -- 8Fz6: bit 0 alone is shifted out again
    obtain ⟨⟨_, rfl, h⟩, -⟩ := hshift 0xF z
    exact ⟨_, h, by simp (disch := omega) [Nat.mod_eq_of_lt]⟩
  · -- 8Fy7: the flag is subtracted from V[y]
    obtain ⟨-, _, rfl, h⟩ := hsub 0xF y
    exact ⟨_, h, by simp [hfy, apply_ite BitVec.toNat]⟩
  · -- 8xF7: V[x] is subtracted from the flag
    obtain ⟨-, _, rfl, h⟩ := hsub x 0xF
    exact ⟨_, h, by simp [hfx, apply_ite BitVec.toNat], by simp [hfx.symm, apply_ite BitVec.toNat]⟩
  · -- 8FF7: the flag is subtracted from itself
    obtain ⟨-, _, rfl, h⟩ := hsub 0xF 0xF
    exact ⟨_, h, by simp⟩
  · -- 8FzE: bit 7, now bit 0, is shifted once
    obtain ⟨-, _, rfl, h⟩ := hshift 0xF z
    exact ⟨_, h, by simp (disch := omega) [Nat.mod_eq_of_lt]⟩
end

section
/-! SUPPORT. What the instructions of 43_index_memory.md answer (R220 to R227): the value each gives I, and one lemma
for each way a checked transfer between memory and registers can end. A store of `n + 1` bytes touches I to I + n; Fx33
(n = 2) and Fx55 (n = x) are two such stores. The obligations of 43_index_memory.md follow. -/

namespace Sys2Proof.Machine

/-! ### The index register (R220 to R222) -/

/-- The low nibble of a byte as a number. -/
theorem byte_lowNibble_toNat (v : Byte) : (v &&& 0xF#8).toNat = v.toNat % 16 := by
  rw [BitVec.toNat_and]
  exact Nat.and_two_pow_sub_one_eq_mod v.toNat 4

/-- The last glyph starts at most 75 bytes above FONT_BASE, so 16 bits hold the address (R222). -/
theorem glyphAddress_toNat (cfg : Config) (v : Byte) :
    (glyphAddress cfg v).toNat = cfg.fontBase.val + v.toNat % 16 * 5 := by
  have hbase := cfg.fontBase.isLt
  rw [glyphAddress, byte_lowNibble_toNat, BitVec.toNat_ofNat]
  omega

theorem exec_addI_of_fits {x : Reg} {s : State} (h : s.I.toNat + (s.getV x).toNat ≤ 0xFFF) :
    exec (.addI x) s = .next ((s.setI (BitVec.ofNat 16 (s.I.toNat + (s.getV x).toNat))).output .ok false) := by
  rw [exec, execAddI, if_neg (by omega), complete_eq]

theorem exec_addI_of_past {x : Reg} {s : State} (h : s.I.toNat + (s.getV x).toNat > 0xFFF) :
    exec (.addI x) s =
      .next (s.output (.fault (.outOfBounds (.indexAdd (s.I.toNat + (s.getV x).toNat)))) false) := by
  rw [exec, execAddI, if_pos h, raise_eq]

/-! ### Stores from I (R223, R224, R226, R227) -/

section
variable {bs : List Byte} {n : Nat} {s : State} (hlen : bs.length = n + 1)
include hlen

theorem storeAtI_of_past (hpast : s.I.toNat + n > 0xFFF) :
    storeAtI bs s = .next (s.output (.fault (.outOfBounds (.memRange s.I.toNat (n + 1)))) false) := by
  rw [storeAtI, hlen, checkRange_error (by omega), attempt_error]

theorem storeAtI_of_font (hrange : s.I.toNat + n ≤ 0xFFF) (hro : s.cfg.enforceFontReadonly = true)
    (hstart : s.I.toNat ≤ s.cfg.fontBase.val + 79) (hlast : s.I.toNat + n ≥ s.cfg.fontBase.val) :
    storeAtI bs s = .next (s.output (.fault (.specFault (.fontWrite s.I.toNat))) false) := by
  rw [storeAtI, hlen, checkRange_ok (by omega), attempt_ok, checkFontWrite_error ⟨hro, hstart, by omega⟩,
    attempt_error]

theorem storeAtI_of_clear (hrange : s.I.toNat + n ≤ 0xFFF)
    (hclear : s.cfg.enforceFontReadonly = true →
      s.I.toNat > s.cfg.fontBase.val + 79 ∨ s.I.toNat + n < s.cfg.fontBase.val) :
    storeAtI bs s = .next ((s.writeBytes s.I.toNat bs).output .ok false) := by
  have hfont : ¬ (s.cfg.enforceFontReadonly = true ∧ s.I.toNat ≤ s.cfg.fontBase.val + 79 ∧
      s.I.toNat + (n + 1) - 1 ≥ s.cfg.fontBase.val) := by
    rintro ⟨hro, hstart, hlast⟩
    have := hclear hro
    omega
  rw [storeAtI, hlen, checkRange_ok (by omega), attempt_ok, checkFontWrite_ok hfont, attempt_ok, complete_eq]

/-- A store that passes both checks changes memory alone: byte k reads back at I + k, and every address outside
I to I + n reads as before. -/
theorem storeAtI_stores (hrange : s.I.toNat + n ≤ 0xFFF)
    (hclear : s.cfg.enforceFontReadonly = true →
      s.I.toNat > s.cfg.fontBase.val + 79 ∨ s.I.toNat + n < s.cfg.fontBase.val) :
    ∃ t, storeAtI bs s = .next t ∧ t = { s with M := t.M, status := .ok, redraw := false } ∧
      (∀ k (hk : k < bs.length), t.readByte (s.I.toNat + k) = bs[k]) ∧
      ∀ a, a < s.I.toNat ∨ a > s.I.toNat + n → t.readByte a = s.readByte a := by
  refine ⟨_, storeAtI_of_clear hlen hrange hclear, ?_, fun k hk => ?_, fun a ha => ?_⟩
  · exact congrArg (State.output .ok false) (State.writeBytes_eq s.I.toNat bs s)
  · rw [State.readByte_output, State.readByte_writeBytes, dif_pos (by omega)]
    simp only [Nat.add_sub_cancel_left]
  · rw [State.readByte_output, State.readByte_writeBytes, dif_neg (by omega)]

end

/-! ### Loads from I (R225, R226) -/

theorem exec_loadRegs_of_range {x : Reg} {s : State} (h : s.I.toNat + x.val ≤ 0xFFF) :
    exec (.loadRegs x) s = .next ((loadInto (regsUpTo x) s).output .ok false) := by
  rw [exec, execLoadRegs, checkRange_ok (by omega), attempt_ok, complete_eq]

theorem exec_loadRegs_of_past {x : Reg} {s : State} (h : s.I.toNat + x.val > 0xFFF) :
    exec (.loadRegs x) s = .next (s.output (.fault (.outOfBounds (.memRange s.I.toNat (x.val + 1)))) false) := by
  rw [exec, execLoadRegs, checkRange_error (by omega), attempt_error]

end Sys2Proof.Machine

open Sys2Proof Sys2Proof.Machine

/-- Settles O41: a store of the three digits, each of which a byte holds. -/
theorem bcdStoresThreeDigits : Obligations.BcdStoresThreeDigits := by
  intro x s
  have hlen : (bcdDigits (s.getV x)).length = 2 + 1 := rfl
  have hv : s.V[x].toNat < 256 := s.V[x].isLt
  refine ⟨fun hrange hclear => ?_, storeAtI_of_past hlen, storeAtI_of_font hlen⟩
  obtain ⟨t, hexec, hframe, hbytes, hothers⟩ := storeAtI_stores hlen hrange hclear
  refine ⟨t, hexec, hframe, (congrArg BitVec.toNat (hbytes 0 (by omega))).trans ?_,
    (congrArg BitVec.toNat (hbytes 1 (by omega))).trans ?_, (congrArg BitVec.toNat (hbytes 2 (by omega))).trans ?_,
    hothers⟩
  · exact Nat.mod_eq_of_lt (by omega)
  · exact Nat.mod_eq_of_lt (by omega)
  · exact Nat.mod_eq_of_lt (by omega)

/-- Settles O42: a store of V[0] to V[x], whose byte r is V[r]. -/
theorem storeWritesRegistersFromI : Obligations.StoreWritesRegistersFromI := by
  intro x s
  have hlen := length_valuesUpTo s x
  refine ⟨fun hrange hclear => ?_, storeAtI_of_past hlen, storeAtI_of_font hlen⟩
  obtain ⟨t, hexec, hframe, hbytes, hothers⟩ := storeAtI_stores hlen hrange hclear
  refine ⟨t, hexec, hframe, fun r hr => ?_, hothers⟩
  have hr' : r.val < (s.valuesUpTo x).length := by rw [hlen]; exact Nat.lt_succ_of_le hr
  exact (hbytes r.val hr').trans (getElem_valuesUpTo s x r.val hr')

/-- Settles O43: the registers loaded are those up to x, each from the memory the instruction found. -/
theorem loadReadsRegistersFromI : Obligations.LoadReadsRegistersFromI := by
  intro x s
  refine ⟨fun hrange => ⟨_, exec_loadRegs_of_range hrange, ?_, fun r => ?_⟩, exec_loadRegs_of_past⟩
  · exact congrArg (State.output .ok false) (loadInto_eq (regsUpTo x) s)
  · exact (getV_loadInto (regsUpTo x) s r).trans (by simp only [mem_regsUpTo, ← Fin.le_def]; rfl)

/-- Settles O39: neither address overflows 16 bits. -/
theorem indexLoads : Obligations.IndexLoads :=
  fun nnn x s => ⟨⟨addressOf nnn, rfl, addressOf_toNat nnn⟩,
    ⟨glyphAddress s.cfg (s.getV x), rfl, glyphAddress_toNat s.cfg (s.getV x)⟩⟩

/-- Settles O40: a sum up to 0xFFF is the value of its 16-bit word. -/
theorem addToIndexIsChecked : Obligations.AddToIndexIsChecked :=
  fun _ _ => ⟨fun h => ⟨_, exec_addI_of_fits h, Nat.mod_eq_of_lt (by omega)⟩, exec_addI_of_past⟩
end

section
/-! SUPPORT. What a completed Dxyn leaves (44_display.md R251 to R254): the rows that hit a pixel are those of the
sprite that covers it, so the laws of `drawRows` speak of `SpriteCovers`. The obligations of 44_display.md follow. -/

namespace Sys2Proof.Machine

theorem Display.getElem_blank (px : Fin 64) (py : Fin 32) : Display.blank[py][px] = false := by
  simp only [Display.blank, Fin.getElem_fin, Vector.getElem_replicate]

/-! ### The pixels a sprite covers -/

/-- A sprite covers the pixels its rows hit. -/
theorem spriteCovers_iff {s : State} {x y : Reg} {n : Nat} {px : Fin 64} {py : Fin 32} :
    SpriteCovers s x y n px py ↔ ∃ row < n, RowHits s (s.getV x) (s.getV y) row px py := by
  constructor
  · rintro ⟨row, col, hrow, hcol, hle, hbit, hx, hy⟩
    exact ⟨row, hrow, hle, Fin.ext hy, col, List.mem_range.mpr hcol, hbit, Fin.ext hx⟩
  · rintro ⟨row, hrow, hle, hy, col, hcol, hbit, hx⟩
    exact ⟨row, col, hrow, List.mem_range.mp hcol, hle, hbit, congrArg Fin.val hx, congrArg Fin.val hy⟩

/-- The pixels covered depend on I, the two origin registers and the sprite's bytes alone. -/
theorem spriteCovers_congr {s u : State} {x y : Reg} {n : Nat} (hI : u.I = s.I) (hx : u.V[x] = s.V[x])
    (hy : u.V[y] = s.V[y]) (hbytes : ∀ row < n, u.readByte (s.I.toNat + row) = s.readByte (s.I.toNat + row))
    (px : Fin 64) (py : Fin 32) : SpriteCovers u x y n px py ↔ SpriteCovers s x y n px py := by
  unfold SpriteCovers
  rw [hI, hx, hy]
  refine exists_congr fun row => exists_congr fun col => and_congr_right fun hrow => ?_
  rw [hbytes row hrow]

/-! ### The state after a draw -/

section
variable {x y : Reg} {n : Fin 16} {s t : State} (h : exec (.drw x y n) s = .next t)
include h

theorem draw_frame : t = { s with V := t.V, D := t.D, status := t.status, redraw := true } := by
  obtain rfl := next_inj h
  exact congrArg (State.output _ true) (drawRows_eq ..)

theorem draw_keeps_register {r : Reg} (hr : r ≠ 0xF) : t.V[r] = s.V[r] := by
  obtain rfl := next_inj h
  exact (getV_drawRows_ne hr).trans (s.getV_setV_ne _ hr.symm)

theorem draw_toggles_covered {px : Fin 64} {py : Fin 32} (hc : SpriteCovers s x y n.val px py) :
    t.D[py][px] = !s.D[py][px] := by
  obtain rfl := next_inj h
  obtain ⟨row, hrow, hhit⟩ := spriteCovers_iff.mp hc
  exact pixel_drawRows_hit (by omega) (Nat.zero_le row) (by omega) hhit

theorem draw_keeps_uncovered {px : Fin 64} {py : Fin 32} (hc : ¬ SpriteCovers s x y n.val px py) :
    t.D[py][px] = s.D[py][px] := by
  obtain rfl := next_inj h
  exact pixel_drawRows_miss fun row _ hrow hhit => hc (spriteCovers_iff.mpr ⟨row, by omega, hhit⟩)

theorem draw_collision (hcoll : ∃ px py, SpriteCovers s x y n.val px py ∧ s.D[py][px] = true) : t.V[15] = 1 := by
  obtain rfl := next_inj h
  obtain ⟨px, py, hc, hset⟩ := hcoll
  obtain ⟨row, hrow, hhit⟩ := spriteCovers_iff.mp hc
  exact vf_drawRows_hit (by omega) (Nat.zero_le row) (by omega) hhit hset

theorem draw_no_collision (hclear : ∀ px py, SpriteCovers s x y n.val px py → s.D[py][px] = false) :
    t.V[15] = 0 := by
  obtain rfl := next_inj h
  have hkeep := vf_drawRows_miss (vx := s.getV x) (vy := s.getV y) (k := n.val) (row := 0)
    (s := withFlag (flag false) s) (by omega)
    fun row px py _ hrow hhit => hclear px py (spriteCovers_iff.mpr ⟨row, by omega, hhit⟩)
  exact hkeep.trans (s.getV_setV_self vf (flag false))

/-- The status of a draw, from where its rows stop (R251). -/
theorem draw_status : t.status = drawStatus
    (if n.val = 0 ∨ s.I.toNat + n.val - 1 ≤ 0xFFF then none else some (max s.I.toNat 0x1000)) := by
  obtain rfl := next_inj h
  exact congrArg drawStatus (drawRows_stop _ _ n.val 0 (withFlag (flag false) s))

theorem draw_status_of_within (hin : ∀ row < n.val, s.I.toNat + row ≤ 0xFFF) : t.status = .ok := by
  have hlast : n.val = 0 ∨ s.I.toNat + n.val - 1 ≤ 0xFFF :=
    n.val.eq_zero_or_pos.imp_right fun hpos => by have := hin (n.val - 1) (by omega); omega
  rw [draw_status h, if_pos hlast, drawStatus]

theorem draw_status_of_past {row : Nat} (hrow : row < n.val) (hpast : s.I.toNat + row > 0xFFF)
    (hfirst : ∀ r < row, s.I.toNat + r ≤ 0xFFF) : t.status = .nonFatal (.outOfBounds (.sprite (s.I.toNat + row))) := by
  have haddr : max s.I.toNat 0x1000 = s.I.toNat + row := by
    rcases row.eq_zero_or_pos with rfl | hpos
    · omega
    · have := hfirst (row - 1) (by omega)
      omega
  rw [draw_status h, if_neg (by omega), haddr, drawStatus]

/-- A draw leaves in VF whether it covered a pixel that was set, as 1 or 0 (R251). -/
theorem draw_vf_cases :
    ((∃ px py, SpriteCovers s x y n.val px py ∧ s.D[py][px] = true) ∧ t.V[15] = 1) ∨
    (¬ (∃ px py, SpriteCovers s x y n.val px py ∧ s.D[py][px] = true) ∧ t.V[15] = 0) := by
  by_cases hhit : ∃ px py, SpriteCovers s x y n.val px py ∧ s.D[py][px] = true
  · exact .inl ⟨hhit, draw_collision h hhit⟩
  · refine .inr ⟨hhit, draw_no_collision h fun px py hc => ?_⟩
    exact Bool.eq_false_iff.mpr fun hset => hhit ⟨px, py, hc, hset⟩

/-- The pixels a draw turns on are the covered ones that are set after it. -/
theorem draw_turns_on_iff (px : Fin 64) (py : Fin 32) :
    s.D[py][px] = false ∧ t.D[py][px] = true ↔ SpriteCovers s x y n.val px py ∧ t.D[py][px] = true := by
  refine and_congr_left fun hset => ?_
  by_cases hc : SpriteCovers s x y n.val px py
  · rw [draw_toggles_covered h hc, Bool.not_eq_true'] at hset
    simp only [hc, hset]
  · rw [draw_keeps_uncovered h hc] at hset
    exact iff_of_false (by rw [hset]; decide) hc

end

end Sys2Proof.Machine

open Sys2Proof Sys2Proof.Machine

/-- Settles O45: the display written is the blank one. -/
theorem clearScreenClearsEveryPixel : Obligations.ClearScreenClearsEveryPixel :=
  fun _ => ⟨Display.blank, rfl, Display.getElem_blank⟩

/-- Settles O46, clause by clause from the laws of a draw. -/
theorem drawTogglesExactlyTheSprite : Obligations.DrawTogglesExactlyTheSprite := by
  intro x y n s
  obtain ⟨t, h⟩ : ∃ t, exec (.drw x y n) s = .next t := ⟨_, rfl⟩
  exact ⟨t, h, draw_frame h, fun _ => draw_keeps_register h, fun _ _ => draw_toggles_covered h,
    fun _ _ => draw_keeps_uncovered h, draw_collision h, draw_no_collision h, draw_status_of_within h,
    fun _ => draw_status_of_past h⟩

/-- Settles O47: the second draw covers the pixels of the first, so it toggles each of them back, and it meets a set
pixel exactly where the first turned one on. -/
theorem drawingTwiceRestoresTheDisplay : Obligations.DrawingTwiceRestoresTheDisplay := by
  intro x y n s t u v hx hy hfirst hD hV hI hbytes hsecond
  have hIs : u.I = s.I := hI.trans (by rw [draw_frame hfirst])
  have hreg {r : Reg} (hr : r ≠ 0xF) : u.V[r] = s.V[r] := by rw [hV, draw_keeps_register hfirst hr]
  have hcover := spriteCovers_congr hIs (hreg hx) (hreg hy) hbytes
  have hon : (∃ px py, SpriteCovers u x y n.val px py ∧ u.D[py][px] = true) ↔
      ∃ (px : Fin 64) (py : Fin 32), s.D[py][px] = false ∧ t.D[py][px] = true := by
    simp only [hcover, hD, draw_turns_on_iff hfirst]
  refine ⟨Display.ext_pixel fun px py => ?_, ?_⟩
  · by_cases hc : SpriteCovers s x y n.val px py
    · rw [draw_toggles_covered hsecond ((hcover px py).mpr hc), hD, draw_toggles_covered hfirst hc, Bool.not_not]
    · rw [draw_keeps_uncovered hsecond (mt (hcover px py).mp hc), hD, draw_keeps_uncovered hfirst hc]
  · rw [← hon]
    obtain ⟨hhit, hvf⟩ | ⟨hmiss, hvf⟩ := draw_vf_cases hsecond
    · exact ⟨iff_of_true hvf hhit, .inl hvf⟩
    · exact ⟨iff_of_false (by rw [hvf]; decide) hmiss, .inr hvf⟩
end

section
/-! SUPPORT. What the instructions of 45_keys_timers.md answer (R280 to R286): one lemma for each way the key-index
check and the key wait can end. The obligations of 45_keys_timers.md follow. -/

namespace Sys2Proof.Machine

/-! ### The key skips (R280, R281, R286) -/

theorem checkKeyIndex_of_key {v : Byte} {k : Reg} (h : v.toNat = k.val) : checkKeyIndex v = .ok k :=
  (checkKeyIndex_ok (by omega)).trans (congrArg Except.ok (Fin.ext h))

section
variable {x k : Reg} {s : State}

theorem exec_skp_of_key (h : (s.getV x).toNat = k.val) : exec (.skp x) s = skipIf s.keys[k] s := by
  rw [exec, execSkp, checkKeyIndex_of_key h, attempt_ok]

theorem exec_sknp_of_key (h : (s.getV x).toNat = k.val) : exec (.sknp x) s = skipIf (!s.keys[k]) s := by
  rw [exec, execSknp, checkKeyIndex_of_key h, attempt_ok]

theorem exec_skp_of_past (h : (s.getV x).toNat > 0xF) :
    exec (.skp x) s = .next (s.output (.fault (.specFault (.keyIndexRange (s.getV x)))) false) := by
  rw [exec, execSkp, checkKeyIndex_error (Nat.not_le.mpr h), attempt_error]

theorem exec_sknp_of_past (h : (s.getV x).toNat > 0xF) :
    exec (.sknp x) s = .next (s.output (.fault (.specFault (.keyIndexRange (s.getV x)))) false) := by
  rw [exec, execSknp, checkKeyIndex_error (Nat.not_le.mpr h), attempt_error]

/-! ### The wait for a key (R283) -/

theorem exec_ldKey_of_key (h : lowestKey s.keys = some k) :
    exec (.ldKey x) s = .next ((s.setV x (keyCode k)).output .ok false) := by
  rw [exec, execLdKey, h]; rfl

theorem exec_ldKey_of_no_key (h : lowestKey s.keys = none) :
    exec (.ldKey x) s = .next ((s.setW (some x)).output .awaitingKey false) := by
  rw [exec, execLdKey, h]; rfl

end

/-! ### The timer moves (R282, R284, R285) -/

theorem exec_ldFromDT_eq (x : Reg) (s : State) :
    exec (.ldFromDT x) s = .next ((s.setV x s.DT).output .ok false) := by
  rw [exec, execLdFromDT, complete_eq]

theorem exec_ldToDT_eq (x : Reg) (s : State) :
    exec (.ldToDT x) s = .next ((s.setDT (s.getV x)).output .ok false) := by
  rw [exec, execLdToDT, complete_eq]

theorem exec_ldToST_eq (x : Reg) (s : State) :
    exec (.ldToST x) s = .next ((s.setST (s.getV x)).output .ok false) := by
  rw [exec, execLdToST, complete_eq]

end Sys2Proof.Machine

open Sys2Proof Sys2Proof.Machine

/-- Settles O48: a key index that passes the check is the key tested, and the skip writes PC alone. -/
theorem keySkipsTestTheKeyNamed : Obligations.KeySkipsTestTheKeyNamed := by
  intro x s
  refine ⟨fun k hk => ⟨?_, ?_⟩, fun hpast => ⟨exec_skp_of_past hpast, exec_sknp_of_past hpast⟩⟩
  · rw [exec_skp_of_key hk, skipIf_writes_PC]
  · rw [exec_sknp_of_key hk, skipIf_writes_PC]
    cases s.keys[k] <;> rfl

/-- Settles O49, by the two ends of the search for the lowest pressed key. -/
theorem waitForKeyTakesTheLowestOrWaits : Obligations.WaitForKeyTakesTheLowestOrWaits :=
  fun _ _ => ⟨fun _ hk hlt => exec_ldKey_of_key (lowestKey_eq_some.mpr ⟨hk, hlt⟩),
    fun hnone => exec_ldKey_of_no_key (lowestKey_eq_none.mpr hnone)⟩

/-- Settles O50: each move writes its destination alone. -/
theorem timerRegistersMoveWhole : Obligations.TimerRegistersMoveWhole :=
  fun x s => ⟨exec_ldFromDT_eq x s, exec_ldToDT_eq x s, exec_ldToST_eq x s⟩
end

section
/-! SUPPORT. The host's third transaction, tick_timers (60_exceptions.md R320), and who reads the key vector (R324).
The obligations of 60_exceptions.md follow. -/

namespace Sys2Proof.Machine

/-- A step whose transaction is a timer tick runs that tick (R120). -/
theorem step_of_tick {s : State} {rest : List Transaction} (hp : s.pending = .tickTimers :: rest) :
    step s = .next (tickTimers { s with pending := rest }) := by
  rw [step, serve, hp]

/-- Counting down is subtraction on natural numbers, which stops at zero (R33, R320). -/
theorem countDown_eq_ofNat (b : Byte) : countDown b = BitVec.ofNat 8 (b.toNat - 1) := by
  rw [countDown]
  split
  case isTrue hzero => rw [hzero]; rfl
  case isFalse hpos =>
    have toNat_pos : b.toNat ≠ 0 := fun e => hpos (BitVec.eq_of_toNat_eq e)
    have one : (1 : Byte).toNat = 1 := rfl
    rw [byte_sub_eq_ofNat, one, show (256 + b.toNat - 1) % 256 = b.toNat - 1 by omega]

end Sys2Proof.Machine

open Sys2Proof Sys2Proof.Machine

/-- Settles O38: with the random byte left as it is, the key vector is the only input replaced. -/
theorem keysAreReadByKeyInstructionsAlone : Obligations.KeysAreReadByKeyInstructionsAlone := by
  intro i s t K hi h
  have not_key : ¬ ∃ x, i = .skp x ∨ i = .sknp x ∨ i = .ldKey x := by
    rintro ⟨x, hx⟩
    obtain ⟨hskp, hsknp, hldKey⟩ := hi x
    exact hx.elim hskp (·.elim hsknp hldKey)
  calc exec i { s with keys := K }
    _ = supplyResult K s.rand (exec i s) := exec_supply K s.rand (fun _ => rfl) (absurd · not_key)
    _ = .next (t.supply K s.rand) := congrArg (supplyResult K s.rand) h
    _ = .next { t with keys := K } := by rw [← (exec_keepsSetup h).rand]; rfl

/-- Settles O51: the tick writes the two timers alone, each counted down. -/
theorem tickCountsEachTimerTowardZero : Obligations.TickCountsEachTimerTowardZero := by
  intro s rest hp
  rw [step_of_tick hp, ← countDown_eq_ofNat, ← countDown_eq_ofNat]
  rfl
end

section
/-! SUPPORT. What a load that fits leaves to read in the font region (70_reset_and_hazards.md R351). The obligations
on a load as a whole follow. -/

namespace Sys2Proof.Machine

/-- After a load a byte of the font region that the ROM does not cover reads as the font table (R69, R351). -/
theorem readByte_load_font {rom : List Byte} {s : State} (hfit : rom.length ≤ 3584) (g : Nat) (hg : g < 80)
    (hrom : ¬ (progBase ≤ s.cfg.fontBase.val + g ∧ s.cfg.fontBase.val + g < progBase + rom.length)) :
    (load rom s).readByte (s.cfg.fontBase.val + g) = s.cfg.fontTable[g] := by
  rw [readByte_load_other hfit _ hrom, fontByte_base_add s.cfg g hg, Option.getD_some]

end Sys2Proof.Machine

open Sys2Proof Sys2Proof.Machine

/-- Settles O52: the registers are those written in load, and memory reads as the ROM, else as the font. -/
theorem loadIsTheFullReset : Obligations.LoadIsTheFullReset := by
  intro s rom rest hp hfit
  refine ⟨_, step_of_load hp, ?_⟩
  have hROM := readByte_load_rom (s := { s with pending := rest }) hfit
  have hfont := readByte_load_font (s := { s with pending := rest }) hfit
  rw [load_fits hfit] at hROM hfont ⊢
  exact ⟨fun r => Vector.getElem_replicate r.isLt, rfl, rfl, rfl, rfl, rfl, Display.getElem_blank, rfl, rfl, rfl, rfl,
    rfl, rfl, hROM, hfont⟩

/-- Settles O54: a load is refused whole or accepted whole, by the length of the ROM alone. -/
theorem oversizeLoadChangesNothing : Obligations.OversizeLoadChangesNothing := by
  intro s rom rest hp
  rw [step_of_load hp]
  constructor
  · intro hover
    rw [load_oversize hover]
  · intro hfit
    exact ⟨_, rfl, by rw [load_fits hfit], by rw [load_fits hfit]⟩
end
